-- ==== Sys2Proof/Word.lean ====
section
/-! DEFINITION. The word type, the decoded instruction word, and what stands in an operand slot
(spec/00_scope.md R5, spec/30_encoding.md R65, R70, R71). -/

namespace Sys2Proof

/-- A stack cell, an integer operand, an I/O value: 64 bits, read as signed two's complement (R5, R11). -/
abbrev Word := BitVec 64

/-- The Decoded Instruction Word, 144 bits, bit 0 the least significant (R70). -/
abbrev Diw := BitVec 144

/-- The 2-bit tag of an operand slot (R71). -/
inductive Tag where
  /-- `0b00`: no operand text. -/
  | absent
  /-- `0b01`: an integer. -/
  | int
  /-- `0b10`: a resolved label. -/
  | label
  /-- `0b11`: an operand text that is present but unusable in this slot. -/
  | bad
deriving DecidableEq, Repr

/-- One operand slot of a DIW: its tag and its 64-bit value (R70, R71). -/
structure Slot where
  tag : Tag
  val : Word
deriving DecidableEq, Repr

/-- The slot the load writes where a record has no operand text (R71, R72). -/
def Slot.empty : Slot := ⟨.absent, 0⟩

/-- What an instruction's signature asks of a slot (R65). -/
inductive OperandKind where
  /-- No operand may stand here. -/
  | none
  /-- An integer must stand here. -/
  | int
  /-- A label must stand here. -/
  | label
  /-- START, HLT and the label marker: whatever stands here is ignored. -/
  | ignored
deriving DecidableEq, Repr

end Sys2Proof
end

