-- ==== Sys2Proof/Config.lean ====
section
/-! DEFINITION. The implementation parameters of spec/00_scope.md R5 to R10: the fixed ones with this
hardware's values, the open ones as constants without a body. -/

namespace Sys2Proof.Config

/-- `STACK_CAP` (R6): the stack array has cells `0 .. STACK_CAP - 1`. -/
def stackCap : Int := 8192

/-- `START_SP` (R7, 10_state.md R24): the value of `sp` when the stack is empty, fixed for all time. -/
def startSp : Int := -1

/-- `INIT_STACK` (R10): what cell `a` holds after reset, for the `draw`-th reset of the machine. The spec
leaves it open, so it has no body: nothing can be proved of its value (log 3). -/
opaque initStack : (draw : Nat) → (a : Nat) → Word

/-- `PROG_MAX - 1` (R8): open, without a body (log 5). -/
opaque progMaxLessOne : Nat

/-- `PROG_MAX` (R8): the longest program image the block accepts; all that is known is `PROG_MAX >= 1`. -/
def progMax : Nat := progMaxLessOne + 1

/-- An explicit or implicit cell address that exists: `0 <= a <= STACK_CAP - 1` (20_memory.md R41). -/
abbrev inArray (a : Int) : Prop := 0 ≤ a ∧ a ≤ stackCap - 1

end Sys2Proof.Config
end

