-- ==== Sys2Proof/Syntax.lean ====
section
/-! DEFINITION. The instructions, one constructor per row of spec/opcode_table.json, in the order of
spec/30_encoding.md R73. -/

namespace Sys2Proof

/-- An instruction as the decoder reads it from a DIW whose `opc` is in the opcode map and whose `rsv` is 0.
It keeps BOTH operand slots of the DIW whatever their tags: the decoder does not look at the tags (R74), the
operand check of 40_dispatch.md R92 does when the instruction executes (log 12). -/
inductive Instr where
  /-- `START`, opcode `0x00`, 40_dispatch.md R94: no effect beyond the fetch; operands ignored. -/
  | start (o1 o2 : Slot)
  /-- `LDC`, opcode `0x01`, 41_load_store.md R110: push the literal `k` (slot 1). -/
  | ldc (o1 o2 : Slot)
  /-- `LDV`, opcode `0x02`, 41_load_store.md R111: push cell `n` (slot 1). -/
  | ldv (o1 o2 : Slot)
  /-- `ADD`, opcode `0x03`, 42_arithmetic.md R120. -/
  | add (o1 o2 : Slot)
  /-- `SUB`, opcode `0x04`, 42_arithmetic.md R121. -/
  | sub (o1 o2 : Slot)
  /-- `MULT`, opcode `0x05`, 42_arithmetic.md R122. -/
  | mult (o1 o2 : Slot)
  /-- `DIVI`, opcode `0x06`, 42_arithmetic.md R123. -/
  | divi (o1 o2 : Slot)
  /-- `INV`, opcode `0x07`, 42_arithmetic.md R124. -/
  | inv (o1 o2 : Slot)
  /-- `AND`, opcode `0x08`, 43_logic.md R130. -/
  | and (o1 o2 : Slot)
  /-- `OR`, opcode `0x09`, 43_logic.md R131. -/
  | or (o1 o2 : Slot)
  /-- `NEG`, opcode `0x0A`, 43_logic.md R132. -/
  | neg (o1 o2 : Slot)
  /-- `CME`, opcode `0x0B`, 44_compare.md R140: less than. -/
  | cme (o1 o2 : Slot)
  /-- `CMA`, opcode `0x0C`, 44_compare.md R141: greater than. -/
  | cma (o1 o2 : Slot)
  /-- `CEQ`, opcode `0x0D`, 44_compare.md R142: equal. -/
  | ceq (o1 o2 : Slot)
  /-- `CDIF`, opcode `0x0E`, 44_compare.md R143: not equal. -/
  | cdif (o1 o2 : Slot)
  /-- `CMEQ`, opcode `0x0F`, 44_compare.md R144: less than or equal. -/
  | cmeq (o1 o2 : Slot)
  /-- `CMAQ`, opcode `0x10`, 44_compare.md R145: greater than or equal. -/
  | cmaq (o1 o2 : Slot)
  /-- `JMP`, opcode `0x11`, 45_branch_call.md R150: label in slot 1. -/
  | jmp (o1 o2 : Slot)
  /-- `JMPF`, opcode `0x12`, 45_branch_call.md R151: label in slot 1. -/
  | jmpf (o1 o2 : Slot)
  /-- `ALLOC`, opcode `0x13`, 46_frame.md R160: `m` in slot 1, `n` in slot 2. -/
  | alloc (o1 o2 : Slot)
  /-- `DALLOC`, opcode `0x14`, 46_frame.md R161: `m` in slot 1, `n` in slot 2. -/
  | dalloc (o1 o2 : Slot)
  /-- `RD`, opcode `0x15`, 47_io.md R171. -/
  | rd (o1 o2 : Slot)
  /-- `PRN`, opcode `0x16`, 47_io.md R172. -/
  | prn (o1 o2 : Slot)
  /-- `STR`, opcode `0x17`, 41_load_store.md R112: pop into cell `n` (slot 1). -/
  | str (o1 o2 : Slot)
  /-- `CALL`, opcode `0x18`, 45_branch_call.md R152: label in slot 1. -/
  | call (o1 o2 : Slot)
  /-- `RETURN`, opcode `0x19`, 45_branch_call.md R153. -/
  | ret (o1 o2 : Slot)
  /-- `HLT`, opcode `0x1A`, 40_dispatch.md R95; operands ignored. -/
  | hlt (o1 o2 : Slot)
  /-- `label_marker`, opcode `0x1B`, 40_dispatch.md R93: the label marker, a no-op; operands ignored. -/
  | labelMarker (o1 o2 : Slot)
deriving DecidableEq, Repr

end Sys2Proof
end

