-- ==== Sys2Proof/Decode.lean ====
section
/-! DEFINITION. The Decoded Instruction Word of spec/30_encoding.md R70 to R77: its fields, the decoder
(total, rejecting by `none` what R75 calls illegal) and, after it, the encoder. -/

namespace Sys2Proof

/-! ### Fields of a DIW (R70) -/

/-- Bits `[7:0]`: the opcode number. -/
def Diw.opc (w : Diw) : BitVec 8 := w.extractLsb' 0 8
/-- Bits `[9:8]`: the tag of slot 1. -/
def Diw.t1 (w : Diw) : BitVec 2 := w.extractLsb' 8 2
/-- Bits `[11:10]`: the tag of slot 2. -/
def Diw.t2 (w : Diw) : BitVec 2 := w.extractLsb' 10 2
/-- Bits `[15:12]`: reserved. -/
def Diw.rsv (w : Diw) : BitVec 4 := w.extractLsb' 12 4
/-- Bits `[79:16]`: the value of slot 1. -/
def Diw.v1 (w : Diw) : Word := w.extractLsb' 16 64
/-- Bits `[143:80]`: the value of slot 2. -/
def Diw.v2 (w : Diw) : Word := w.extractLsb' 80 64
/-- Bits `[15:0]`: the header. -/
def Diw.header (w : Diw) : BitVec 16 := w.extractLsb' 0 16

/-- A DIW from its six fields (R70). -/
def Diw.pack (opc : BitVec 8) (t1 t2 : BitVec 2) (rsv : BitVec 4) (v1 v2 : Word) : Diw :=
  v2 ++ v1 ++ rsv ++ t2 ++ t1 ++ opc

/-- The tag a 2-bit code stands for (R71). -/
def Tag.ofBits (b : BitVec 2) : Tag :=
  match b.toNat with
  | 0 => .absent
  | 1 => .int
  | 2 => .label
  | _ => .bad

/-- The 2-bit code of a tag (R71). -/
def Tag.bits : Tag → BitVec 2
  | .absent => 0b00#2
  | .int => 0b01#2
  | .label => 0b10#2
  | .bad => 0b11#2

/-- Slot 1 of a DIW. -/
def Diw.slot1 (w : Diw) : Slot := ⟨Tag.ofBits w.t1, w.v1⟩
/-- Slot 2 of a DIW. -/
def Diw.slot2 (w : Diw) : Slot := ⟨Tag.ofBits w.t2, w.v2⟩

/-! ### The opcode map (R73) and the decoder -/

/-- The instruction an opcode number selects (R73), waiting for its two slots; none for `0x1C` to `0xFF` (R75). -/
def instrOfOpcode (opc : Nat) : Option (Slot → Slot → Instr) :=
  match opc with
  | 0x00 => some .start
  | 0x01 => some .ldc
  | 0x02 => some .ldv
  | 0x03 => some .add
  | 0x04 => some .sub
  | 0x05 => some .mult
  | 0x06 => some .divi
  | 0x07 => some .inv
  | 0x08 => some .and
  | 0x09 => some .or
  | 0x0A => some .neg
  | 0x0B => some .cme
  | 0x0C => some .cma
  | 0x0D => some .ceq
  | 0x0E => some .cdif
  | 0x0F => some .cmeq
  | 0x10 => some .cmaq
  | 0x11 => some .jmp
  | 0x12 => some .jmpf
  | 0x13 => some .alloc
  | 0x14 => some .dalloc
  | 0x15 => some .rd
  | 0x16 => some .prn
  | 0x17 => some .str
  | 0x18 => some .call
  | 0x19 => some .ret
  | 0x1A => some .hlt
  | 0x1B => some .labelMarker
  | _ => none

/-- Decoding (R74): the header selects a row by `header & 0xF0FF`, that is by `opc` with `rsv = 0`; the tags are
not looked at. `none` is an illegal header, which executes as UnknownOperation (R75). -/
def decode (w : Diw) : Option Instr :=
  if w.rsv = 0 then (instrOfOpcode w.opc.toNat).map fun mk => mk w.slot1 w.slot2 else none

/-! ### The encoder -/

/-- The opcode number of an instruction (R73). -/
def Instr.opcode : Instr → BitVec 8
  | .start _ _ => 0x00#8
  | .ldc _ _ => 0x01#8
  | .ldv _ _ => 0x02#8
  | .add _ _ => 0x03#8
  | .sub _ _ => 0x04#8
  | .mult _ _ => 0x05#8
  | .divi _ _ => 0x06#8
  | .inv _ _ => 0x07#8
  | .and _ _ => 0x08#8
  | .or _ _ => 0x09#8
  | .neg _ _ => 0x0A#8
  | .cme _ _ => 0x0B#8
  | .cma _ _ => 0x0C#8
  | .ceq _ _ => 0x0D#8
  | .cdif _ _ => 0x0E#8
  | .cmeq _ _ => 0x0F#8
  | .cmaq _ _ => 0x10#8
  | .jmp _ _ => 0x11#8
  | .jmpf _ _ => 0x12#8
  | .alloc _ _ => 0x13#8
  | .dalloc _ _ => 0x14#8
  | .rd _ _ => 0x15#8
  | .prn _ _ => 0x16#8
  | .str _ _ => 0x17#8
  | .call _ _ => 0x18#8
  | .ret _ _ => 0x19#8
  | .hlt _ _ => 0x1A#8
  | .labelMarker _ _ => 0x1B#8

/-- Slot 1 of an instruction. -/
def Instr.slot1 : Instr → Slot
  | .start o1 _ => o1
  | .ldc o1 _ => o1
  | .ldv o1 _ => o1
  | .add o1 _ => o1
  | .sub o1 _ => o1
  | .mult o1 _ => o1
  | .divi o1 _ => o1
  | .inv o1 _ => o1
  | .and o1 _ => o1
  | .or o1 _ => o1
  | .neg o1 _ => o1
  | .cme o1 _ => o1
  | .cma o1 _ => o1
  | .ceq o1 _ => o1
  | .cdif o1 _ => o1
  | .cmeq o1 _ => o1
  | .cmaq o1 _ => o1
  | .jmp o1 _ => o1
  | .jmpf o1 _ => o1
  | .alloc o1 _ => o1
  | .dalloc o1 _ => o1
  | .rd o1 _ => o1
  | .prn o1 _ => o1
  | .str o1 _ => o1
  | .call o1 _ => o1
  | .ret o1 _ => o1
  | .hlt o1 _ => o1
  | .labelMarker o1 _ => o1

/-- Slot 2 of an instruction. -/
def Instr.slot2 : Instr → Slot
  | .start _ o2 => o2
  | .ldc _ o2 => o2
  | .ldv _ o2 => o2
  | .add _ o2 => o2
  | .sub _ o2 => o2
  | .mult _ o2 => o2
  | .divi _ o2 => o2
  | .inv _ o2 => o2
  | .and _ o2 => o2
  | .or _ o2 => o2
  | .neg _ o2 => o2
  | .cme _ o2 => o2
  | .cma _ o2 => o2
  | .ceq _ o2 => o2
  | .cdif _ o2 => o2
  | .cmeq _ o2 => o2
  | .cmaq _ o2 => o2
  | .jmp _ o2 => o2
  | .jmpf _ o2 => o2
  | .alloc _ o2 => o2
  | .dalloc _ o2 => o2
  | .rd _ o2 => o2
  | .prn _ o2 => o2
  | .str _ o2 => o2
  | .call _ o2 => o2
  | .ret _ o2 => o2
  | .hlt _ o2 => o2
  | .labelMarker _ o2 => o2

/-- The DIW of an instruction: one word, `rsv` 0 (R70, R73). -/
def encode (i : Instr) : Diw :=
  Diw.pack i.opcode i.slot1.tag.bits i.slot2.tag.bits 0 i.slot1.val i.slot2.val

/-- What the decoder reads from an instruction whose bits are `w`: bit 0 of the DIW is bit 0 of `w`, and every
bit from `nbits` on is 0 (the DIW is one word, so no byte order is involved: 20_memory.md R42). -/
def decodeTableWord (nbits w : Nat) : Option Instr :=
  decode (BitVec.ofNat 144 (w % 2 ^ nbits))

/-! ### Operand signatures (R65) -/

/-- The signature `(K1, K2)` of an opcode number (R65). -/
def opcodeSig (opc : Nat) : OperandKind × OperandKind :=
  match opc with
  | 0x00 => (.ignored, .ignored)
  | 0x01 => (.int, .none)
  | 0x02 => (.int, .none)
  | 0x11 => (.label, .none)
  | 0x12 => (.label, .none)
  | 0x13 => (.int, .int)
  | 0x14 => (.int, .int)
  | 0x17 => (.int, .none)
  | 0x18 => (.label, .none)
  | 0x1A => (.ignored, .ignored)
  | 0x1B => (.ignored, .ignored)
  | _ => (.none, .none)

/-- The signature of an instruction. -/
def Instr.sig (i : Instr) : OperandKind × OperandKind := opcodeSig i.opcode.toNat

/-! ### Mnemonics (R64, R69, R73) -/

/-- The mnemonics of R73 with their opcode numbers, in its order. The label marker has no mnemonic. -/
def mnemonicTable : List (String × BitVec 8) :=
  [("START", 0x00#8), ("LDC", 0x01#8), ("LDV", 0x02#8), ("ADD", 0x03#8), ("SUB", 0x04#8), ("MULT", 0x05#8), ("DIVI", 0x06#8),
   ("INV", 0x07#8), ("AND", 0x08#8), ("OR", 0x09#8), ("NEG", 0x0A#8), ("CME", 0x0B#8), ("CMA", 0x0C#8), ("CEQ", 0x0D#8),
   ("CDIF", 0x0E#8), ("CMEQ", 0x0F#8), ("CMAQ", 0x10#8), ("JMP", 0x11#8), ("JMPF", 0x12#8), ("ALLOC", 0x13#8), ("DALLOC", 0x14#8),
   ("RD", 0x15#8), ("PRN", 0x16#8), ("STR", 0x17#8), ("CALL", 0x18#8), ("RETURN", 0x19#8), ("HLT", 0x1A#8)]

/-- The opcode number of a non-empty operation: exact lookup, `0xFF` (UNKNOWN) where the table has no such
mnemonic (R69). -/
def opcodeOf (operation : String) : BitVec 8 := (mnemonicTable.lookup operation).getD 0xFF#8

end Sys2Proof
end

