-- ==== Sys2Proof/Machine/State.lean ====
section
/-! DEFINITION. The state of the VMC engine as plain data (spec/10_state.md R20 to R39), its value after reset,
and the reasons a step can stop. -/

namespace Sys2Proof.Machine

/-- The run state `run` (10_state.md R31). -/
inductive RunState where
  /-- `0b00`: after reset, no program loaded. -/
  | idle
  /-- `0b01`. -/
  | running
  /-- `0b10`: terminal until reset. -/
  | halted
  /-- `0b11`: terminal until reset. -/
  | faulted
deriving DecidableEq, Repr

/-- The contents of `fault_code`: no fault, or one of the ten causes of 60_exceptions.md R200. -/
inductive FaultCode where
  /-- Code 0. -/
  | noFault
  /-- Code 1, raised by the load. -/
  | loadError
  /-- Code 2, raised by a header that matches no row. -/
  | unknownOperation
  /-- Code 3, raised by the operand check. -/
  | operandTypeError
  /-- Code 4, raised by the operand check of JMP, JMPF and CALL. -/
  | labelNotFound
  /-- Code 5, raised by LDV, STR, ALLOC and DALLOC. -/
  | addressOutOfRange
  /-- Code 6, raised by what pops. -/
  | stackUnderflow
  /-- Code 7, raised by what pushes. -/
  | stackOverflow
  /-- Code 8, raised by DIVI. -/
  | arithmeticError
  /-- Code 9, raised by RETURN. -/
  | ipOutOfRange
  /-- Code 10, raised by RD and PRN. -/
  | ioChannelError
deriving DecidableEq, Repr

/-- The request of an in-flight I/O transaction (47_io.md R170). -/
inductive IoRequest where
  /-- `RdReq`. -/
  | rdReq
  /-- `WrReq(v)`. -/
  | wrReq (v : Word)
deriving DecidableEq, Repr

/-- The host's answer to a read request, `RdResp` (47_io.md R170). -/
inductive ReadAnswer where
  | value (v : Word)
  | error
deriving DecidableEq, Repr

/-- The host's answer to a write request, `WrResp` (47_io.md R170). -/
inductive WriteAnswer where
  | ok
  | error
deriving DecidableEq, Repr

/-- One event on the I/O channel: what the host observes of a run (47_io.md R174). -/
inductive IoEvent where
  | rdReq
  | rdResp (r : ReadAnswer)
  | wrReq (v : Word)
  | wrResp (r : WriteAnswer)
deriving DecidableEq, Repr

/-- The cells of the stack array written since reset, as (cell, word) pairs in rising order (Memory.wf, log 4).
A cell that is not listed holds its INIT_STACK value. -/
abbrev Memory := List (Nat × Word)

/-- Everything the machine holds between two steps (10_state.md R20). -/
structure State where
  /-- `run` (R31). -/
  run : RunState
  /-- `ip` (R21): the index of the next instruction to fetch. -/
  ip : Nat
  /-- `sp` (R23): the top occupied cell, -1 when the stack is empty. -/
  sp : Int
  /-- `stack` (R26). -/
  stack : Memory
  /-- The model's own counter of resets: it numbers the runs, so that a response can be told from one to a run that a
  reset abandoned (log 25), and says which draw of INIT_STACK the unwritten cells hold (log 3). -/
  resetCount : Nat
  /-- `halt_cause` (R33): false is 0 (HLT), true is 1 (the end of the image). -/
  haltCause : Bool
  /-- `fault_code` (R34). -/
  faultCode : FaultCode
  /-- `fault_ip` (R35). -/
  faultIp : Nat
  /-- The program image `prog[0 .. len-1]` (R36). -/
  prog : List Diw
  /-- The label map (R37): each name once, with its index. -/
  labels : List (String × Nat)
  /-- The in-flight I/O transaction (R38). -/
  inFlight : Option IoRequest
  /-- `IO_ATTACHED` of this launch (00_scope.md R9). -/
  ioAttached : Bool
  /-- The model's own: the host's coming answers to read requests, oldest first; none yet means RD waits (log 7). -/
  readAnswers : List ReadAnswer
  /-- The model's own: the host's coming answers to write requests, oldest first (log 7). -/
  writeAnswers : List WriteAnswer
  /-- The model's own: the channel events of this run so far, oldest first (log 8). -/
  ioTrace : List IoEvent
deriving DecidableEq, Repr

/-- Why the MODEL stops. The engine's own faults are no stops: they are next states with `run = FAULTED`. -/
inductive Fault where
  /-- Raised by memRead and memWrite (Machine/Ops.lean) at an address outside the stack array. Safe: it happens
  only where `sp` is outside the range of 10_state.md R27, which no run reaches (log 11). -/
  | noSuchCell
  /-- Raised by the fetch (Machine/Fetch.lean) at an index above `len`. Safe: it happens only where `ip` is outside
  the range of 10_state.md R21, which no run reaches (log 11). -/
  | noSuchInstruction
deriving DecidableEq, Repr

/-- Why the model gives an instruction no meaning. -/
inductive Refusal where
  /-- Raised by an arm of exec whose instruction has no meaning yet; no arm does. Safe. -/
  | notModelled (mnemonic : String)
deriving DecidableEq, Repr

/-- What a step or a meaning answers. -/
abbrev Out := Host.Outcome State Fault Refusal

/-- The state after reset (R39, 70_reset_and_hazards.md R230): no cell of the stack is written, so each holds
INIT_STACK. The values of `resetCount`, `ioAttached`, the answers and the trace are the model's (logs 3, 6, 7, 8, 25). -/
def State.reset : State :=
  { run := .idle, ip := 0, sp := Config.startSp, stack := [], resetCount := 0, haltCause := false
    faultCode := .noFault, faultIp := 0, prog := [], labels := [], inFlight := none, ioAttached := false
    readAnswers := [], writeAnswers := [], ioTrace := [] }

end Sys2Proof.Machine
end

