-- ==== Sys2Proof/Machine/Memory.lean ====
section
/-! DEFINITION. The stack array's storage (spec/10_state.md R26, spec/20_memory.md R40 to R45). -/

namespace Sys2Proof.Machine

/-- The word written last into cell `a`, none if nothing has been written there since reset. -/
def Memory.peek : Memory → Nat → Option Word
  | [], _ => none
  | (b, w) :: m, a => if a = b then some w else Memory.peek m a

/-- Cell `a` holds `v` from now on; the list stays in rising order. -/
def Memory.write : Memory → Nat → Word → Memory
  | [], a, v => [(a, v)]
  | (b, w) :: m, a, v =>
    if a < b then (a, v) :: (b, w) :: m
    else if a = b then (a, v) :: m
    else (b, w) :: Memory.write m a v

/-- The canonical form: addresses strictly rising and inside the array, so that two memories that were written
alike are equal lists (log 4). -/
abbrev Memory.wf (m : Memory) : Prop :=
  m.Pairwise (fun e f => e.1 < f.1) ∧ ∀ e ∈ m, Config.inArray e.1

/-- What cell `a` holds (20_memory.md R45): the last word written, else its INIT_STACK value. -/
def State.cell (s : State) (a : Int) : Word :=
  (s.stack.peek a.toNat).getD (Config.initStack s.resetCount a.toNat)

/-- The state with `v` in cell `a`. -/
def State.setCell (s : State) (a : Int) (v : Word) : State :=
  { s with stack := s.stack.write a.toNat v }

end Sys2Proof.Machine
end

