-- ==== Sys2Proof/Machine/Ops.lean ====
section
/-! DEFINITION. The shared operations that the rules of spec/41_load_store.md to spec/47_io.md are written with:
registers, the memory primitives of spec/00_scope.md R13, `raise` and `check` of R14, and fault entry
(spec/60_exceptions.md R202). There is no return from a fault (R203). -/

namespace Sys2Proof.Machine

/-! ### Registers and views -/

/-- `len` (10_state.md R36). -/
def State.len (s : State) : Nat := s.prog.length

/-- `start_sp` (10_state.md R24): hard-wired. -/
def State.startSp (_ : State) : Int := Config.startSp

/-- `sp <- v`. -/
def State.setSp (s : State) (v : Int) : State := { s with sp := v }

/-- `ip <- v`. -/
def State.setIp (s : State) (v : Nat) : State := { s with ip := v }

/-- The fetch increment (10_state.md R22). -/
def State.advance (s : State) : State := { s with ip := s.ip + 1 }

/-- `run <- HALTED; halt_cause <- cause` (40_dispatch.md R91, R95). -/
def State.halt (s : State) (cause : Bool) : State := { s with run := .halted, haltCause := cause }

/-- The 2-bit code of a run state (10_state.md R31). -/
def RunState.code : RunState → BitVec 2
  | .idle => 0b00#2
  | .running => 0b01#2
  | .halted => 0b10#2
  | .faulted => 0b11#2

/-- The 4-bit code of a fault (60_exceptions.md R200). -/
def FaultCode.code : FaultCode → BitVec 4
  | .noFault => 0
  | .loadError => 1
  | .unknownOperation => 2
  | .operandTypeError => 3
  | .labelNotFound => 4
  | .addressOutOfRange => 5
  | .stackUnderflow => 6
  | .stackOverflow => 7
  | .arithmeticError => 8
  | .ipOutOfRange => 9
  | .ioChannelError => 10

/-- The status word (10_state.md R32): run in `[1:0]`, halt_cause in `[2]`, fault_code in `[7:4]`, the rest 0. -/
def State.status (s : State) : BitVec 16 :=
  0#8 ++ s.faultCode.code ++ 0#1 ++ BitVec.ofBool s.haltCause ++ s.run.code

/-- `wrap64(x)` (00_scope.md R11): the 64-bit word whose signed value is `x` modulo `2^64`. -/
def wrap64 (x : Int) : Word := BitVec.ofInt 64 x

/-- `zext_64` of an instruction index (45_branch_call.md R152, 30_encoding.md R71). -/
def indexWord (i : Nat) : Word := BitVec.ofNat 64 i

/-! ### Faults (00_scope.md R14, 60_exceptions.md R202) -/

/-- Fault entry (60_exceptions.md R202): `run`, `fault_code` and `fault_ip` are written and nothing else. `ip` has
been incremented by the fetch, so the faulting instruction's index is `ip - 1` (10_state.md R35). -/
def faultEntry (f : FaultCode) (s : State) : State :=
  { s with run := .faulted, faultCode := f, faultIp := s.ip - 1 }

/-- `raise F`. -/
def raise (f : FaultCode) (s : State) : Out := .next (faultEntry f s)

/-- `check(c) else F`, then the rest of the rule. -/
def check (c : Prop) [Decidable c] (f : FaultCode) (s : State) (rest : Out) : Out :=
  if c then rest else raise f s

/-! ### Memory primitives (00_scope.md R13) -/

/-- `MemRead(a, 1)`, then the rest of the rule. The rules call it inside the array only; outside it there is no
cell, and the model stops. -/
def memRead (a : Int) (s : State) (rest : Word → Out) : Out :=
  if Config.inArray a then rest (s.cell a) else .fault .noSuchCell

/-- `MemWrite(a, 1, v)`, then the rest of the rule. -/
def memWrite (a : Int) (v : Word) (s : State) (rest : State → Out) : Out :=
  if Config.inArray a then rest (s.setCell a v) else .fault .noSuchCell

/-! ### Checks and pushes (10_state.md R25, D4) -/

/-- An instruction that consumes `k` values requires `sp >= start_sp + k`. -/
def checkPresent (k : Int) (s : State) (rest : Out) : Out :=
  check (s.startSp + k ≤ s.sp) .stackUnderflow s rest

/-- An instruction that pushes `k` values requires `sp + k <= STACK_CAP - 1`. -/
def checkRoom (k : Int) (s : State) (rest : Out) : Out :=
  check (s.sp + k ≤ Config.stackCap - 1) .stackOverflow s rest

/-- An explicit address requires `0 <= a <= STACK_CAP - 1` (20_memory.md R41, D5). -/
def checkAddress (a : Int) (s : State) (rest : Out) : Out :=
  check (Config.inArray a) .addressOutOfRange s rest

/-- Push: `sp <- sp + 1; stack[sp] <- v` (10_state.md R23), after the room has been checked. -/
def push (v : Word) (s : State) (rest : State → Out) : Out :=
  memWrite (s.sp + 1) v (s.setSp (s.sp + 1)) rest

/-- The shape of the binary operators: `a` second from top, `b` on top, the result in `a`'s cell, `sp--`
(42_arithmetic.md R125, 43_logic.md, 44_compare.md). -/
def binaryOp (f : Word → Word → Word) (s : State) : Out :=
  checkPresent 2 s <|
  memRead (s.sp - 1) s fun a =>
  memRead s.sp s fun b =>
  memWrite (s.sp - 1) (f a b) s fun t =>
  .next (t.setSp (s.sp - 1))

/-- The shape of INV and NEG: the top is replaced in place (42_arithmetic.md R124, 43_logic.md R132). -/
def unaryOp (f : Word → Word) (s : State) : Out :=
  checkPresent 1 s <|
  memRead s.sp s fun x =>
  memWrite s.sp (f x) s fun t =>
  .next t

end Sys2Proof.Machine
end

