-- ==== Sys2Proof/Machine/Operands.lean ====
section
/-! DEFINITION. The operand check that runs after decoding and before every rule of the 25 table opcodes
(spec/40_dispatch.md R92, spec/30_encoding.md R65, R71, R76). -/

namespace Sys2Proof.Machine

/-- The first pass of OperandCheck for one slot: kind and presence. -/
def kindFault (k : OperandKind) (o : Slot) : Bool :=
  match k with
  | .none => o.tag ≠ .absent
  | .int => o.tag ≠ .int
  | .label => o.tag = .absent
  | .ignored => false

/-- The second pass for one slot: label resolution in an image of length `len`. A tag other than LABEL, or a value
that is no index of the image, counts as unresolved (30_encoding.md R76). -/
def labelFault (k : OperandKind) (len : Nat) (o : Slot) : Bool :=
  match k with
  | .label => o.tag ≠ .label || len ≤ o.val.toNat
  | _ => false

/-- `OperandCheck(w)`, then the rest of the rule on the values `v1` and `v2` (40_dispatch.md R92). -/
def withOperands (k1 k2 : OperandKind) (o1 o2 : Slot) (s : State) (rest : Word → Word → Out) : Out :=
  check (¬ (kindFault k1 o1 || kindFault k2 o2)) .operandTypeError s <|
  check (¬ (labelFault k1 s.len o1 || labelFault k2 s.len o2)) .labelNotFound s <|
  rest o1.val o2.val

end Sys2Proof.Machine
end

