-- ==== Sys2Proof/Machine/Arithmetic.lean ====
section
/-! DEFINITION. ADD, SUB, MULT, DIVI and INV (spec/42_arithmetic.md): the exact result, narrowed by `wrap64` (R125). -/

namespace Sys2Proof.Machine

/-- `trunc_div(a, b)` (00_scope.md R11): the quotient rounded toward zero. -/
def truncDiv (a b : Int) : Int := Int.tdiv a b

/-- `ADD` (R120). -/
def execAdd (o1 o2 : Slot) (s : State) : Out :=
  withOperands .none .none o1 o2 s fun _ _ =>
  binaryOp (fun a b => wrap64 (a.toInt + b.toInt)) s

/-- `SUB` (R121): second minus top. -/
def execSub (o1 o2 : Slot) (s : State) : Out :=
  withOperands .none .none o1 o2 s fun _ _ =>
  binaryOp (fun a b => wrap64 (a.toInt - b.toInt)) s

/-- `MULT` (R122): the low 64 bits of the exact product. -/
def execMult (o1 o2 : Slot) (s : State) : Out :=
  withOperands .none .none o1 o2 s fun _ _ =>
  binaryOp (fun a b => wrap64 (a.toInt * b.toInt)) s

/-- `DIVI` (R123): second divided by top; a zero divisor is checked after the underflow. -/
def execDivi (o1 o2 : Slot) (s : State) : Out :=
  withOperands .none .none o1 o2 s fun _ _ =>
  checkPresent 2 s <|
  memRead (s.sp - 1) s fun a =>
  memRead s.sp s fun b =>
  check (b ≠ 0#64) .arithmeticError s <|
  memWrite (s.sp - 1) (wrap64 (truncDiv a.toInt b.toInt)) s fun t =>
  .next (t.setSp (s.sp - 1))

/-- `INV` (R124): negate the top in place. -/
def execInv (o1 o2 : Slot) (s : State) : Out :=
  withOperands .none .none o1 o2 s fun _ _ =>
  unaryOp (fun x => wrap64 (0 - x.toInt)) s

end Sys2Proof.Machine
end

