-- ==== Sys2Proof/Machine/Branch.lean ====
section
/-! DEFINITION. JMP, JMPF, CALL and RETURN (spec/45_branch_call.md). The operand check has made sure that `L` is an
index of the image. -/

namespace Sys2Proof.Machine

/-- `JMP L` (R150). -/
def execJmp (o1 o2 : Slot) (s : State) : Out :=
  withOperands .label .none o1 o2 s fun l _ =>
  .next (s.setIp l.toNat)

/-- `JMPF L` (R151): pop, and jump if the popped value is 0. -/
def execJmpf (o1 o2 : Slot) (s : State) : Out :=
  withOperands .label .none o1 o2 s fun l _ =>
  checkPresent 1 s <|
  memRead s.sp s fun c =>
  .next (if c = 0#64 then (s.setSp (s.sp - 1)).setIp l.toNat else s.setSp (s.sp - 1))

/-- `CALL L` (R152): push the return index `ip = i + 1`, then jump. -/
def execCall (o1 o2 : Slot) (s : State) : Out :=
  withOperands .label .none o1 o2 s fun l _ =>
  checkRoom 1 s <|
  push (indexWord s.ip) s fun t =>
  .next (t.setIp l.toNat)

/-- `RETURN` (R153): pop the top into `ip`, if it lies in `[0, len]`. -/
def execRet (o1 o2 : Slot) (s : State) : Out :=
  withOperands .none .none o1 o2 s fun _ _ =>
  checkPresent 1 s <|
  memRead s.sp s fun r =>
  check (0 ≤ r.toInt ∧ r.toInt ≤ s.len) .ipOutOfRange s <|
  .next ((s.setSp (s.sp - 1)).setIp r.toInt.toNat)

end Sys2Proof.Machine
end

