-- ==== Sys2Proof/Machine/Flags.lean ====
section
/-! DEFINITION. The VMC engine has no status flags and no condition codes (spec/10_state.md R29): a truth value is
a word, 1 or 0, on the stack. Here stand the truth values that take the place of flags. -/

namespace Sys2Proof.Machine

/-- `bool(c)` (00_scope.md R11): 1 when the condition holds and 0 otherwise. -/
def boolWord (c : Prop) [Decidable c] : Word := if c then 1#64 else 0#64

/-- What AND, OR take as true: strict equality to 1 (43_logic.md). -/
abbrev isTrueWord (x : Word) : Prop := x = 1#64

end Sys2Proof.Machine
end

