-- ==== Sys2Proof/Machine/Compare.lean ====
section
/-! DEFINITION. The six comparisons (spec/44_compare.md), on signed 64-bit values. -/

namespace Sys2Proof.Machine

/-- `CME` (R140): less than. -/
def execCme (o1 o2 : Slot) (s : State) : Out :=
  withOperands .none .none o1 o2 s fun _ _ =>
  binaryOp (fun a b => boolWord (a.toInt < b.toInt)) s

/-- `CMA` (R141): greater than. -/
def execCma (o1 o2 : Slot) (s : State) : Out :=
  withOperands .none .none o1 o2 s fun _ _ =>
  binaryOp (fun a b => boolWord (a.toInt > b.toInt)) s

/-- `CEQ` (R142): equal in all 64 bits. -/
def execCeq (o1 o2 : Slot) (s : State) : Out :=
  withOperands .none .none o1 o2 s fun _ _ =>
  binaryOp (fun a b => boolWord (a = b)) s

/-- `CDIF` (R143): not equal. -/
def execCdif (o1 o2 : Slot) (s : State) : Out :=
  withOperands .none .none o1 o2 s fun _ _ =>
  binaryOp (fun a b => boolWord (a ≠ b)) s

/-- `CMEQ` (R144): less than or equal. -/
def execCmeq (o1 o2 : Slot) (s : State) : Out :=
  withOperands .none .none o1 o2 s fun _ _ =>
  binaryOp (fun a b => boolWord (a.toInt ≤ b.toInt)) s

/-- `CMAQ` (R145): greater than or equal. -/
def execCmaq (o1 o2 : Slot) (s : State) : Out :=
  withOperands .none .none o1 o2 s fun _ _ =>
  binaryOp (fun a b => boolWord (a.toInt ≥ b.toInt)) s

end Sys2Proof.Machine
end

