-- ==== Sys2Proof/Machine/Control.lean ====
section
/-! DEFINITION. The three loop-handled instructions (spec/40_dispatch.md R93 to R95). They run before any operand
check, so their slots are ignored. Here and in the other meanings the state is the one after the fetch: `ip`
already holds the index after the instruction (spec/00_scope.md R15). -/

namespace Sys2Proof.Machine

/-- `START` (R94): nothing beyond the fetch increment. -/
def execStart (_o1 _o2 : Slot) (s : State) : Out := .next s

/-- `HLT` (R95): `run <- HALTED; halt_cause <- 0`. -/
def execHlt (_o1 _o2 : Slot) (s : State) : Out := .next (s.halt false)

/-- The label marker (R93): nothing beyond the fetch increment. -/
def execLabelMarker (_o1 _o2 : Slot) (s : State) : Out := .next s

end Sys2Proof.Machine
end

