-- ==== Sys2Proof/Machine/Frame.lean ====
section
/-! DEFINITION. ALLOC and DALLOC (spec/46_frame.md): all checks first, in exact arithmetic, then one cell at a time in
the order of R160 and R161. -/

namespace Sys2Proof.Machine

/-- The range check that both share: a count of at least 0, and a non-empty range inside the array (D5). -/
def checkRange (m n : Int) (s : State) (rest : Out) : Out :=
  check (0 ≤ n) .addressOutOfRange s <|
  check (n = 0 ∨ (0 ≤ m ∧ m + n - 1 ≤ Config.stackCap - 1)) .addressOutOfRange s rest

/-- The loop of ALLOC: read the cell at `src`, push it, go on with the next higher cell. -/
def allocLoop : (count : Nat) → (src : Int) → State → Out
  | 0, _, s => .next s
  | count + 1, src, s => memRead src s fun v => push v s (allocLoop count (src + 1))

/-- The loop of DALLOC: pop the top into the highest cell of the range that is still to be filled. -/
def dallocLoop : (count : Nat) → (m : Int) → State → Out
  | 0, _, s => .next s
  | count + 1, m, s =>
    memRead s.sp s fun v =>
    memWrite (m + count) v s fun t =>
    dallocLoop count m (t.setSp (s.sp - 1))

/-- `ALLOC m,n` (R160). -/
def execAlloc (o1 o2 : Slot) (s : State) : Out :=
  withOperands .int .int o1 o2 s fun m n =>
  checkRange m.toInt n.toInt s <|
  checkRoom n.toInt s <|
  allocLoop n.toInt.toNat m.toInt s

/-- `DALLOC m,n` (R161). -/
def execDalloc (o1 o2 : Slot) (s : State) : Out :=
  withOperands .int .int o1 o2 s fun m n =>
  checkRange m.toInt n.toInt s <|
  checkPresent n.toInt s <|
  dallocLoop n.toInt.toNat m.toInt s

end Sys2Proof.Machine
end

