-- ==== Sys2Proof/Machine/Io.lean ====
section
/-! DEFINITION. RD and PRN and the I/O channel (spec/47_io.md). A transaction is issued, is in flight until the host's
answer is there, and is then completed. Where the answer is already in State's list of coming answers, all of this
is one step; where it is not, the instruction waits with its request in flight (logs 7, 9). -/

namespace Sys2Proof.Machine

/-- The request is sent: it is in flight, and the host has seen it (R170). -/
def issue (req : IoRequest) (event : IoEvent) (s : State) : State :=
  { s with inFlight := some req, ioTrace := s.ioTrace ++ [event] }

/-- The answer has arrived: nothing is in flight any more (R170). -/
def answered (event : IoEvent) (s : State) : State :=
  { s with inFlight := none, ioTrace := s.ioTrace ++ [event] }

/-- The rest of RD once the host has answered (R171). -/
def completeRead (r : ReadAnswer) (s : State) : Out :=
  match r with
  | .error => raise .ioChannelError (answered (.rdResp r) s)
  | .value v => push v (answered (.rdResp r) s) .next

/-- The rest of PRN once the host has answered (R172). -/
def completeWrite (r : WriteAnswer) (s : State) : Out :=
  match r with
  | .error => raise .ioChannelError (answered (.wrResp r) s)
  | .ok => .next ((answered (.wrResp r) s).setSp (s.sp - 1))

/-- The in-flight read goes on: it completes with the oldest answer, or waits where there is none (10_state.md R38). -/
def resumeRead (s : State) : Out :=
  match s.readAnswers with
  | [] => .next s
  | r :: rest => completeRead r { s with readAnswers := rest }

/-- The in-flight write goes on. -/
def resumeWrite (s : State) : Out :=
  match s.writeAnswers with
  | [] => .next s
  | r :: rest => completeWrite r { s with writeAnswers := rest }

/-- The in-flight transaction goes on. -/
def resumeIo (req : IoRequest) (s : State) : Out :=
  match req with
  | .rdReq => resumeRead s
  | .wrReq _ => resumeWrite s

/-- `RD` (R171). -/
def execRd (o1 o2 : Slot) (s : State) : Out :=
  withOperands .none .none o1 o2 s fun _ _ =>
  checkRoom 1 s <|
  check (s.ioAttached = true) .ioChannelError s <|
  resumeRead (issue .rdReq .rdReq s)

/-- `PRN` (R172). -/
def execPrn (o1 o2 : Slot) (s : State) : Out :=
  withOperands .none .none o1 o2 s fun _ _ =>
  checkPresent 1 s <|
  check (s.ioAttached = true) .ioChannelError s <|
  memRead s.sp s fun v =>
  resumeWrite (issue (.wrReq v) (.wrReq v) s)

end Sys2Proof.Machine
end

