-- ==== Sys2Proof/Machine/LoadStore.lean ====
section
/-! DEFINITION. LDC, LDV and STR (spec/41_load_store.md). -/

namespace Sys2Proof.Machine

/-- `LDC k` (R110): push the literal. -/
def execLdc (o1 o2 : Slot) (s : State) : Out :=
  withOperands .int .none o1 o2 s fun k _ =>
  checkRoom 1 s <|
  push k s .next

/-- `LDV n` (R111): push the value of cell `n`, read before the push. -/
def execLdv (o1 o2 : Slot) (s : State) : Out :=
  withOperands .int .none o1 o2 s fun n _ =>
  checkAddress n.toInt s <|
  checkRoom 1 s <|
  memRead n.toInt s fun v =>
  push v s .next

/-- `STR n` (R112): pop the top into cell `n`. -/
def execStr (o1 o2 : Slot) (s : State) : Out :=
  withOperands .int .none o1 o2 s fun n _ =>
  checkAddress n.toInt s <|
  checkPresent 1 s <|
  memRead s.sp s fun v =>
  memWrite n.toInt v s fun t =>
  .next (t.setSp (s.sp - 1))

end Sys2Proof.Machine
end

