-- ==== Sys2Proof/Machine/Logic.lean ====
section
/-! DEFINITION. AND, OR and NEG (spec/43_logic.md). -/

namespace Sys2Proof.Machine

/-- `AND` (R130): 1 when both are exactly 1. -/
def execAnd (o1 o2 : Slot) (s : State) : Out :=
  withOperands .none .none o1 o2 s fun _ _ =>
  binaryOp (fun a b => boolWord (isTrueWord a ∧ isTrueWord b)) s

/-- `OR` (R131): 1 when one of them is exactly 1. -/
def execOr (o1 o2 : Slot) (s : State) : Out :=
  withOperands .none .none o1 o2 s fun _ _ =>
  binaryOp (fun a b => boolWord (isTrueWord a ∨ isTrueWord b)) s

/-- `NEG` (R132): `1 - x` in place. -/
def execNeg (o1 o2 : Slot) (s : State) : Out :=
  withOperands .none .none o1 o2 s fun _ _ =>
  unaryOp (fun x => wrap64 (1 - x.toInt)) s

end Sys2Proof.Machine
end

