-- ==== Sys2Proof/Machine/Dispatch.lean ====
section
/-! DEFINITION. Dispatch: each instruction's meaning, on the state after the fetch (spec/40_dispatch.md R92, R98). -/

namespace Sys2Proof.Machine

def exec (i : Instr) (s : State) : Host.Outcome State Fault Refusal :=
  match i with
  | .start o1 o2 => Sys2Proof.Machine.execStart o1 o2 s
  | .ldc o1 o2 => Sys2Proof.Machine.execLdc o1 o2 s
  | .ldv o1 o2 => Sys2Proof.Machine.execLdv o1 o2 s
  | .add o1 o2 => Sys2Proof.Machine.execAdd o1 o2 s
  | .sub o1 o2 => Sys2Proof.Machine.execSub o1 o2 s
  | .mult o1 o2 => Sys2Proof.Machine.execMult o1 o2 s
  | .divi o1 o2 => Sys2Proof.Machine.execDivi o1 o2 s
  | .inv o1 o2 => Sys2Proof.Machine.execInv o1 o2 s
  | .and o1 o2 => Sys2Proof.Machine.execAnd o1 o2 s
  | .or o1 o2 => Sys2Proof.Machine.execOr o1 o2 s
  | .neg o1 o2 => Sys2Proof.Machine.execNeg o1 o2 s
  | .cme o1 o2 => Sys2Proof.Machine.execCme o1 o2 s
  | .cma o1 o2 => Sys2Proof.Machine.execCma o1 o2 s
  | .ceq o1 o2 => Sys2Proof.Machine.execCeq o1 o2 s
  | .cdif o1 o2 => Sys2Proof.Machine.execCdif o1 o2 s
  | .cmeq o1 o2 => Sys2Proof.Machine.execCmeq o1 o2 s
  | .cmaq o1 o2 => Sys2Proof.Machine.execCmaq o1 o2 s
  | .jmp o1 o2 => Sys2Proof.Machine.execJmp o1 o2 s
  | .jmpf o1 o2 => Sys2Proof.Machine.execJmpf o1 o2 s
  | .alloc o1 o2 => Sys2Proof.Machine.execAlloc o1 o2 s
  | .dalloc o1 o2 => Sys2Proof.Machine.execDalloc o1 o2 s
  | .rd o1 o2 => Sys2Proof.Machine.execRd o1 o2 s
  | .prn o1 o2 => Sys2Proof.Machine.execPrn o1 o2 s
  | .str o1 o2 => Sys2Proof.Machine.execStr o1 o2 s
  | .call o1 o2 => Sys2Proof.Machine.execCall o1 o2 s
  | .ret o1 o2 => Sys2Proof.Machine.execRet o1 o2 s
  | .hlt o1 o2 => Sys2Proof.Machine.execHlt o1 o2 s
  | .labelMarker o1 o2 => Sys2Proof.Machine.execLabelMarker o1 o2 s

end Sys2Proof.Machine
end

