-- ==== Sys2Proof/Machine/Fetch.lean ====
section
/-! DEFINITION. The cycle of the dispatch loop (spec/40_dispatch.md R91, R92, R96), over the meaning of a decoded
instruction, and how a program word is placed where the next cycle fetches it. -/

namespace Sys2Proof.Machine

/-- One cycle in RUNNING with nothing in flight (R91, R92): the run ends at `ip = len`; else fetch, advance `ip`,
decode and execute. -/
def cycle (meaning : Instr → State → Out) (s : State) : Out :=
  if s.ip = s.len then .next (s.halt true)
  else match s.prog[s.ip]? with
    | none => .fault .noSuchInstruction
    | some w => match decode w with
      | none => raise .unknownOperation s.advance
      | some i => meaning i s.advance

/-- One step of the block (R96): a cycle in RUNNING, or the in-flight transaction of RD or PRN going on; there is no
cycle in IDLE, HALTED and FAULTED, which keep all state (60_exceptions.md R217, log 10). -/
def stepWith (meaning : Instr → State → Out) (s : State) : Out :=
  match s.run with
  | .running => match s.inFlight with
    | some req => resumeIo req s
    | none => cycle meaning s
  | .idle => .next s
  | .halted => .next s
  | .faulted => .next s

/-- The image with `w` at index `i`, filled up with START (the DIW 0) below it where the image is shorter. -/
def placeAt : (i : Nat) → (w : Diw) → List Diw → List Diw
  | 0, w, [] => [w]
  | 0, w, _ :: rest => w :: rest
  | i + 1, w, [] => 0#144 :: placeAt i w []
  | i + 1, w, x :: rest => x :: placeAt i w rest

/-- The state in which the very next step fetches and runs `w`: a running machine keeps its `ip`; any other is
put where a launch puts it, RUNNING at index 1 behind a START with its status cleared (R90, log 13). -/
def placeNext (w : Diw) (s : State) : State :=
  if s.run = .running then { s with prog := placeAt s.ip w s.prog, inFlight := none }
  else { s with run := .running, ip := 1, haltCause := false, faultCode := .noFault, faultIp := 0
                prog := placeAt 1 w s.prog, inFlight := none }

end Sys2Proof.Machine
end

