-- ==== Sys2Proof/Machine/Step.lean ====
section
/-! DEFINITION. One step of the machine, and how a word is placed for the next step (spec/40_dispatch.md R92). -/

namespace Sys2Proof.Machine

/-- One step: a cycle of the dispatch loop, or the wait inside RD or PRN (R92, R96). -/
def step (s : State) : Host.Outcome State Fault Refusal := stepWith exec s

/-- `s` with the instruction whose bits are `w` (the bits from `nbits` on are 0) stored where the next step fetches
(log 13). -/
def State.withFetchWord (s : State) (nbits w : Nat) : State :=
  placeNext (BitVec.ofNat 144 (w % 2 ^ nbits)) s

end Sys2Proof.Machine
end

