-- ==== Sys2Proof/Machine/Load.lean ====
section
/-! DEFINITION. The instruction record and the load: the program image, the label map, the start of a run
(spec/30_encoding.md R60 to R72, spec/40_dispatch.md R90). -/

namespace Sys2Proof.Machine

/-- The instruction record that the parser delivers (30_encoding.md R60). Texts are compared byte for byte
(R64, R67), which is equality of strings (log 14). R60 has `op2` only where `op1` is; a record with `op2` alone is
taken too, each slot classified for itself (DESIGN CHOICE, log 24). -/
structure Record where
  label : Option String
  operation : String
  op1 : Option String
  op2 : Option String
deriving DecidableEq, Repr

/-! ### Integer operand texts (30_encoding.md R66) -/

/-- The value of a decimal digit. -/
def digitValue (c : Char) : Option Nat :=
  if '0'.toNat ≤ c.toNat ∧ c.toNat ≤ '9'.toNat then some (c.toNat - '0'.toNat) else none

/-- The decimal value of `acc` followed by digits; none where a character is no digit. -/
def digitsFrom (acc : Nat) : List Char → Option Nat
  | [] => some acc
  | c :: cs => match digitValue c with
    | none => none
    | some d => digitsFrom (10 * acc + d) cs

/-- One or more decimal digits, `[0-9]+`. -/
def digits : List Char → Option Nat
  | [] => none
  | c :: cs => digitsFrom 0 (c :: cs)

/-- `[+-]?[0-9]+`. -/
def signedDigits : List Char → Option Int
  | [] => none
  | c :: cs =>
    if c = '-' then (digits cs).map fun n : Nat => -(n : Int)
    else if c = '+' then (digits cs).map fun n : Nat => (n : Int)
    else (digits (c :: cs)).map fun n : Nat => (n : Int)

/-- The word an operand text in an `INT` slot stands for, if it is an integer in `[-2^63, 2^63-1]` (R66). -/
def parseInt (text : String) : Option Word :=
  match signedDigits text.toList with
  | none => none
  | some x => if -2 ^ 63 ≤ x ∧ x ≤ 2 ^ 63 - 1 then some (wrap64 x) else none

/-! ### The label map (10_state.md R37, 40_dispatch.md R90) -/

/-- The index a label name maps to. -/
def labelIndex (labels : List (String × Nat)) (name : String) : Option Nat := labels.lookup name

/-- `labels[name] <- j`: an earlier mapping of the name is overwritten. -/
def addLabel (labels : List (String × Nat)) (name : String) (j : Nat) : List (String × Nat) :=
  (name, j) :: labels.filter fun e => e.1 ≠ name

/-- What the scan does with the label of the record at index `j`: an absent or an empty label maps nothing. -/
def addRecordLabel (labels : List (String × Nat)) (label : Option String) (j : Nat) : List (String × Nat) :=
  match label with
  | none => labels
  | some name => if name = "" then labels else addLabel labels name j

/-- The ascending scan of R90 from index `j` on: every non-empty label maps to its own index, the last one wins. -/
def scanLabels : (j : Nat) → List Record → List (String × Nat) → List (String × Nat)
  | _, [], labels => labels
  | j, r :: rs, labels => scanLabels (j + 1) rs (addRecordLabel labels r.label j)

/-! ### From a record to a DIW (30_encoding.md R72) -/

/-- `classify(o, K, labels)`: tag and value of a slot. -/
def classify (o : Option String) (k : OperandKind) (labels : List (String × Nat)) : Slot :=
  match o with
  | none => Slot.empty
  | some text => match k with
    | .none => ⟨.bad, 0⟩
    | .ignored => Slot.empty
    | .int => match parseInt text with
      | some v => ⟨.int, v⟩
      | none => ⟨.bad, 0⟩
    | .label => match labelIndex labels text with
      | some j => ⟨.label, indexWord j⟩
      | none => ⟨.bad, 0⟩

/-- `decode(rec, labels)` of R72, total: every error it finds is carried in the DIW. START and HLT have kind
`ignored`, so their slots stay absent; an unknown mnemonic gives `0xFF` with absent slots. -/
def diwOf (rec : Record) (labels : List (String × Nat)) : Diw :=
  if rec.operation = "" then Diw.pack 0x1B#8 0 0 0 0 0
  else
    let opc := opcodeOf rec.operation
    if opc = 0xFF#8 ∨ opc = 0x00#8 ∨ opc = 0x1A#8 then Diw.pack opc 0 0 0 0 0
    else
      let o1 := classify rec.op1 (opcodeSig opc.toNat).1 labels
      let o2 := classify rec.op2 (opcodeSig opc.toNat).2 labels
      Diw.pack opc o1.tag.bits o2.tag.bits 0 o1.val o2.val

/-! ### The load (40_dispatch.md R90) -/

/-- A load fault (60_exceptions.md R202): `len <- 0`, `fault_ip <- 0`; `ip`, `sp` and the stack keep their reset
values. -/
def loadFault (s : State) : State :=
  { s with run := .faulted, faultCode := .loadError, faultIp := 0, prog := [] }

/-- What the load requires of the records: not empty, at most `PROG_MAX`, and the first operation is `START`, exactly
(R90, D20, D33). -/
def loadable (progMax : Nat) (recs : List Record) : Bool :=
  match recs with
  | [] => false
  | r :: _ => r.operation = "START" && recs.length ≤ progMax

/-- A successful load: the label map, the decoded image, and the start of the run at index 1 with an empty stack. -/
def startRun (recs : List Record) (attached : Bool) (s : State) : State :=
  let labels := scanLabels 0 recs []
  { s with labels := labels, prog := recs.map fun r => diwOf r labels, ioAttached := attached
           sp := s.startSp, ip := 1, run := .running }

/-- `Load(recs, io_attached)` for an engine that accepts `progMax` records. `none` is the parser's report of a
malformed line, which is the same LoadError (R90, 30_encoding.md R63; log 15). -/
def load (progMax : Nat) (recs : Option (List Record)) (attached : Bool) (s : State) : State :=
  match recs with
  | none => loadFault s
  | some rs => if loadable progMax rs then startRun rs attached s else loadFault s

end Sys2Proof.Machine
end

