-- ==== Sys2Proof/Machine/HostPort.lean ====
section
/-! DEFINITION. What the host can do to the block (spec/60_exceptions.md R220, spec/70_reset_and_hazards.md R230 to
R232): the two reads, and the four actions that change state. -/

namespace Sys2Proof.Machine

/-- Status read, any time: `STATUS` and `fault_ip`. -/
def statusRead (s : State) : BitVec 16 × Nat := (s.status, s.faultIp)

/-- What the readout port can be asked for. -/
inductive ReadoutTarget where
  | ip
  | sp
  | cell (a : Int)
deriving DecidableEq, Repr

/-- Readout, when `run` is not RUNNING: `ip`, `sp` sign-extended to 64 bits, or a cell that exists. -/
def readout (target : ReadoutTarget) (s : State) : Option Word :=
  if s.run = .running then none
  else match target with
    | .ip => some (indexWord s.ip)
    | .sp => some (wrap64 s.sp)
    | .cell a => if Config.inArray a then some (s.cell a) else none

/-- The host's actions that change state. -/
inductive HostAction where
  /-- Reset, any time. -/
  | reset
  /-- Launch with the record sequence (`none`: the parser found a malformed line) and `IO_ATTACHED`. -/
  | launch (recs : Option (List Record)) (attached : Bool)
  /-- `RdResp`, to a request of the run after the `run`-th reset. -/
  | readResponse (run : Nat) (r : ReadAnswer)
  /-- `WrResp`, to a request of the run after the `run`-th reset. -/
  | writeResponse (run : Nat) (r : WriteAnswer)
deriving DecidableEq, Repr

/-- Reset (70_reset_and_hazards.md R230): every piece of state at its after-reset value, the run and any in-flight
transaction abandoned. The reset is counted: the cells hold a new draw of INIT_STACK, and what the host still answers
to the abandoned run belongs to an earlier count (logs 3, 17, 25). -/
def hostReset (s : State) : State := { State.reset with resetCount := s.resetCount + 1 }

/-- Launch: accepted in IDLE only, ignored otherwise (R220, R231). -/
def hostLaunch (recs : Option (List Record)) (attached : Bool) (s : State) : State :=
  if s.run = .idle then load Config.progMax recs attached s else s

/-- A read response to a request of run `run`: it completes the RD in flight (R220). One to a run that a reset has
abandoned is ignored, whatever is in flight by then (R230, D37; log 25), and so is one with no read in flight (log 18). -/
def hostReadResponse (run : Nat) (r : ReadAnswer) (s : State) : Out :=
  if run = s.resetCount ∧ s.inFlight = some .rdReq then completeRead r s else .next s

/-- A write response to a request of run `run`: it completes the PRN in flight; ignored like a read response. -/
def hostWriteResponse (run : Nat) (r : WriteAnswer) (s : State) : Out :=
  match s.inFlight with
  | some (.wrReq _) => if run = s.resetCount then completeWrite r s else .next s
  | _ => .next s

/-- What a host action does to the block. -/
def hostAct (action : HostAction) (s : State) : Out :=
  match action with
  | .reset => .next (hostReset s)
  | .launch recs attached => .next (hostLaunch recs attached s)
  | .readResponse run r => hostReadResponse run r s
  | .writeResponse run r => hostWriteResponse run r s

end Sys2Proof.Machine
end

