-- ==== Sys2Proof/WellFormed.lean ====
section
/-! DEFINITION. Which instructions the load can write (spec/30_encoding.md R71, R72, R76). The machine runs the
others too (R76 says how); this check only says which DIWs come from a program text. -/

namespace Sys2Proof

/-- What the load may write into a slot of kind `k` of an image of length `len` (R71, R72): nothing in the slots
of START, HLT and the label marker; an absent or a bad operand with value 0; an integer only in an `INT` slot; a
label only in a `LABEL` slot, with a target index below `len`. -/
def Slot.wellFormed (k : OperandKind) (len : Nat) (o : Slot) : Bool :=
  match k, o.tag with
  | _, .absent => o.val = 0
  | .ignored, _ => false
  | _, .bad => o.val = 0
  | .int, .int => true
  | .label, .label => o.val.toNat < len
  | _, _ => false

/-- An instruction that the load can write into an image of length `len`. -/
def Instr.wellFormed (len : Nat) (i : Instr) : Bool :=
  Slot.wellFormed i.sig.1 len i.slot1 && Slot.wellFormed i.sig.2 len i.slot2

end Sys2Proof
end

