-- ==== Sys2Proof/Safety.lean ====
section
/-! DEFINITION. The terms claims are stated in: the invariant that rules out the states no run reaches, and what
two states have in common. -/

namespace Sys2Proof.Machine

/-- `start_sp <= sp <= STACK_CAP - 1` (10_state.md R27). -/
abbrev State.SpInRange (s : State) : Prop := Config.startSp ≤ s.sp ∧ s.sp ≤ Config.stackCap - 1

/-- What 10_state.md says holds in every state of the machine. -/
structure State.Inv (s : State) : Prop where
  /-- R27. -/
  sp_range : s.SpInRange
  /-- R21: `ip` lies in `[0, len]`. -/
  ip_le_len : s.ip ≤ s.len
  /-- The storage of the stack array is in its canonical form (log 4). -/
  stack_wf : s.stack.wf
  /-- R33: `halt_cause` is 0 in every run state but HALTED. -/
  haltCause_halted : s.haltCause = true → s.run = .halted
  /-- R34: `fault_code` is 0 exactly outside FAULTED. -/
  faultCode_faulted : s.faultCode ≠ .noFault ↔ s.run = .faulted
  /-- R35: `fault_ip` is 0 outside FAULTED. -/
  faultIp_faulted : s.run ≠ .faulted → s.faultIp = 0
  /-- R39: what IDLE means for the registers and the image. -/
  idle_empty : s.run = .idle → s.ip = 0 ∧ s.sp = Config.startSp ∧ s.prog = [] ∧ s.labels = []
  /-- R36: after a successful load the image is not empty. -/
  image_nonempty : s.run = .running ∨ s.run = .halted → 1 ≤ s.len
  /-- R37: label indices lie in `[0, len-1]`. -/
  labels_in_image : ∀ e ∈ s.labels, e.2 < s.len
  /-- R38, R173: a transaction is in flight only inside an instruction of an attached run. -/
  inFlight_running : s.inFlight ≠ none → s.run = .running ∧ s.ioAttached = true ∧ 1 ≤ s.ip
  /-- R171: RD has checked for room before its request. -/
  read_has_room : s.inFlight = some .rdReq → s.sp + 1 ≤ Config.stackCap - 1
  /-- R172: PRN has checked for a value before its request, and sends that value. -/
  write_has_value : ∀ v, s.inFlight = some (.wrReq v) → Config.startSp + 1 ≤ s.sp ∧ v = s.cell s.sp

/-- `t` comes after `s` by steps and host actions, any number of them in any order. -/
inductive Reaches (s : State) : State → Prop where
  /-- Nothing has happened. -/
  | here : Reaches s s
  /-- One more step. -/
  | step {t u : State} (before : Reaches s t) (eq : Machine.step t = .next u) : Reaches s u
  /-- One more host action. -/
  | act {t u : State} (action : HostAction) (before : Reaches s t) (eq : hostAct action t = .next u) : Reaches s u

/-- Every cell of `t` reads as in `s`. -/
def SameCells (s t : State) : Prop := ∀ a : Int, 0 ≤ a → t.cell a = s.cell a

/-- Every cell of `t` but cell `b` reads as in `s`. -/
def SameCellsExcept (b : Int) (s t : State) : Prop := ∀ a : Int, 0 ≤ a → a ≠ b → t.cell a = s.cell a

/-- Everything but `sp` and the stack array is as in `s`. -/
def OnlyStackAndSp (s t : State) : Prop := t = { s with stack := t.stack, sp := t.sp }

/-- Everything but `sp`, `ip` and the stack array is as in `s`. -/
def OnlyStackSpAndIp (s t : State) : Prop := t = { s with stack := t.stack, sp := t.sp, ip := t.ip }

/-- Neither slot holds an operand. -/
abbrev NoOperands (o1 o2 : Slot) : Prop := o1.tag = .absent ∧ o2.tag = .absent

/-- Slot 1 holds an integer and slot 2 nothing. -/
abbrev OneInt (o1 o2 : Slot) : Prop := o1.tag = .int ∧ o2.tag = .absent

/-- Both slots hold integers. -/
abbrev TwoInts (o1 o2 : Slot) : Prop := o1.tag = .int ∧ o2.tag = .int

/-- Slot 1 holds a label that is an index of an image of length `len`, and slot 2 nothing. -/
abbrev OneLabel (len : Nat) (o1 o2 : Slot) : Prop := o1.tag = .label ∧ o1.val.toNat < len ∧ o2.tag = .absent

/-- The whole rule of a binary operator (42_arithmetic.md R120 and its like): the opcode number, the operand fault, the
underflow, and the result with its frame. -/
def BinaryRule (mk : Slot → Slot → Instr) (opc : BitVec 8) (f : Word → Word → Word) : Prop :=
  ∀ (o1 o2 : Slot) (s : State), s.SpInRange →
    (mk o1 o2).opcode = opc ∧
    (¬ NoOperands o1 o2 → exec (mk o1 o2) s = .next (faultEntry .operandTypeError s)) ∧
    (NoOperands o1 o2 → s.sp < Config.startSp + 2 → exec (mk o1 o2) s = .next (faultEntry .stackUnderflow s)) ∧
    (NoOperands o1 o2 → Config.startSp + 2 ≤ s.sp →
      ∃ t, exec (mk o1 o2) s = .next t ∧ t.sp = s.sp - 1 ∧
        t.cell (s.sp - 1) = f (s.cell (s.sp - 1)) (s.cell s.sp) ∧
        SameCellsExcept (s.sp - 1) s t ∧ OnlyStackAndSp s t)

/-- The whole rule of an operator on the top in place (42_arithmetic.md R124, 43_logic.md R132). -/
def UnaryRule (mk : Slot → Slot → Instr) (opc : BitVec 8) (f : Word → Word) : Prop :=
  ∀ (o1 o2 : Slot) (s : State), s.SpInRange →
    (mk o1 o2).opcode = opc ∧
    (¬ NoOperands o1 o2 → exec (mk o1 o2) s = .next (faultEntry .operandTypeError s)) ∧
    (NoOperands o1 o2 → s.sp < Config.startSp + 1 → exec (mk o1 o2) s = .next (faultEntry .stackUnderflow s)) ∧
    (NoOperands o1 o2 → Config.startSp + 1 ≤ s.sp →
      ∃ t, exec (mk o1 o2) s = .next t ∧ t.sp = s.sp ∧ t.cell s.sp = f (s.cell s.sp) ∧
        SameCellsExcept s.sp s t ∧ OnlyStackAndSp s t)

/-- The operand faults of an instruction whose slot 1 takes a label (45_branch_call.md R150 to R152): an absent label
or a second operand is an OperandTypeError, first; then any label that is no index of the image is LabelNotFound. -/
def LabelOperandFaults (mk : Slot → Slot → Instr) : Prop :=
  ∀ (o1 o2 : Slot) (s : State),
    (o1.tag = .absent ∨ o2.tag ≠ .absent → exec (mk o1 o2) s = .next (faultEntry .operandTypeError s)) ∧
    (o1.tag ≠ .absent → o2.tag = .absent → ¬ OneLabel s.len o1 o2 →
      exec (mk o1 o2) s = .next (faultEntry .labelNotFound s))

/-- The range that ALLOC and DALLOC accept: no cells, or cells of the array (46_frame.md R160, R161). -/
abbrev RangeAccepted (m n : Int) : Prop :=
  0 ≤ n ∧ (n = 0 ∨ (0 ≤ m ∧ m + n - 1 ≤ Config.stackCap - 1))

/-- What the operand check asks of a slot of kind `k`: kind and presence (40_dispatch.md R92, first pass). -/
def SlotKindOk (k : OperandKind) (o : Slot) : Prop :=
  match k with
  | .none => o.tag = .absent
  | .int => o.tag = .int
  | .label => o.tag ≠ .absent
  | .ignored => True

/-- What the operand check asks of a slot of kind `k`: a label is resolved (40_dispatch.md R92, second pass). -/
def SlotLabelOk (k : OperandKind) (len : Nat) (o : Slot) : Prop :=
  k = .label → o.tag = .label ∧ o.val.toNat < len

end Sys2Proof.Machine
end

