-- ==== Sys2Proof/Certificates/Slice0/Obligations.lean ====
section
/-! DEFINITION. The statements for the provers, one `def Obligations.<Name> : Prop` each. A clause that rests on a
choice of the model's names the log entry. Here `exec i s` is the meaning on the state after the fetch, so the
executing instruction's index is `s.ip - 1` (spec/00_scope.md R15). -/

open Sys2Proof Sys2Proof.Machine

/-! ## Encoding -/

/-- 30_encoding.md R70, R73, R74: decoding the DIW of an instruction gives the instruction back, with both slots,
whatever their tags and values. -/
def Obligations.DecodeOfEncodeIsIdentity : Prop :=
  ∀ i : Instr, decode (encode i) = some i

/-- 30_encoding.md R70, R74, R75: every DIW that decodes is the DIW of what it decodes to, so no bit of it is dropped. -/
def Obligations.EncodeOfDecodeIsIdentity : Prop :=
  ∀ (w : Diw) (i : Instr), decode w = some i → encode i = w

/-- 30_encoding.md R74: a header selects an instruction exactly when `header & 0xF0FF` is its match (the opcode number
in 16 bits, R73); the slots come along whatever their tags. -/
def Obligations.HeaderSelectsByMaskedMatch : Prop :=
  ∀ (w : Diw) (i : Instr), decode w = some i ↔
    w.header &&& 0xF0FF#16 = BitVec.setWidth 16 i.opcode ∧ i.slot1 = w.slot1 ∧ i.slot2 = w.slot2

/-- 30_encoding.md R75: the illegal headers, that they execute as UnknownOperation at their own index, and that the
load produces none of them but `0xFF`. -/
def Obligations.IllegalHeaderRaisesUnknownOperation : Prop :=
  (∀ w : Diw, 0x1C ≤ w.opc.toNat ∨ w.rsv ≠ 0 →
    decode w = none ∧
    ∀ s : State, s.run = .running → s.inFlight = none → s.prog[s.ip]? = some w →
      step s = .next { s with run := .faulted, faultCode := .unknownOperation, faultIp := s.ip, ip := s.ip + 1 }) ∧
  (∀ (rec : Record) (labels : List (String × Nat)),
    (diwOf rec labels).rsv = 0 ∧
    ((diwOf rec labels).opc.toNat < 0x1C ∨ (diwOf rec labels).opc = 0xFF#8))

/-- Words written out from 30_encoding.md R70, R73 (and the tables of 95_test_vectors.md) decode to the instruction
they stand for: one of each family. -/
def Obligations.WrittenOutWordsDecode : Prop :=
  decode 0x000000000000000000000000000000000000#144 = some (.start ⟨.absent, 0⟩ ⟨.absent, 0⟩) ∧
  decode 0x000000000000000000000000000000050101#144 = some (.ldc ⟨.int, 5⟩ ⟨.absent, 0⟩) ∧
  decode 0x000000000000000000000000000000000004#144 = some (.sub ⟨.absent, 0⟩ ⟨.absent, 0⟩) ∧
  decode 0x000000000000000000000000000000000009#144 = some (.or ⟨.absent, 0⟩ ⟨.absent, 0⟩) ∧
  decode 0x00000000000000000000000000000000000F#144 = some (.cmeq ⟨.absent, 0⟩ ⟨.absent, 0⟩) ∧
  decode 0x000000000000000000000000000000090218#144 = some (.call ⟨.label, 9⟩ ⟨.absent, 0⟩) ∧
  decode 0x000000000000000100000000000000020513#144 = some (.alloc ⟨.int, 2⟩ ⟨.int, 1⟩) ∧
  decode 0x000000000000000000000000000000000016#144 = some (.prn ⟨.absent, 0⟩ ⟨.absent, 0⟩) ∧
  decode 0x000000000000000000000000000000000F11#144 = some (.jmp ⟨.bad, 0⟩ ⟨.bad, 0⟩)

/-! ## Records and the load -/

/-- 30_encoding.md R64, R69, R72, R73: the operation alone selects the opcode number, by exact lookup in R73's table,
which is written out here; any other text gives `0xFF` with empty slots, which decodes to nothing; an empty operation
is the label marker whatever the other fields are. -/
def Obligations.OperationSelectsOpcodeByExactLookup : Prop :=
  ∀ (rec : Record) (labels : List (String × Nat)) (table : List (String × BitVec 8)),
    table = [
      ("START", 0x00#8), ("LDC", 0x01#8), ("LDV", 0x02#8), ("ADD", 0x03#8), ("SUB", 0x04#8), ("MULT", 0x05#8),
      ("DIVI", 0x06#8), ("INV", 0x07#8), ("AND", 0x08#8), ("OR", 0x09#8), ("NEG", 0x0A#8), ("CME", 0x0B#8),
      ("CMA", 0x0C#8), ("CEQ", 0x0D#8), ("CDIF", 0x0E#8), ("CMEQ", 0x0F#8), ("CMAQ", 0x10#8), ("JMP", 0x11#8),
      ("JMPF", 0x12#8), ("ALLOC", 0x13#8), ("DALLOC", 0x14#8), ("RD", 0x15#8), ("PRN", 0x16#8), ("STR", 0x17#8),
      ("CALL", 0x18#8), ("RETURN", 0x19#8), ("HLT", 0x1A#8)] →
    (rec.operation = "" → decode (diwOf rec labels) = some (.labelMarker Slot.empty Slot.empty)) ∧
    (∀ n : BitVec 8, (rec.operation, n) ∈ table → (diwOf rec labels).opc = n) ∧
    (rec.operation ≠ "" → rec.operation ∉ table.map Prod.fst →
      diwOf rec labels = Diw.pack 0xFF#8 0 0 0 0 0 ∧ decode (diwOf rec labels) = none)

/-- 30_encoding.md R66: an operand text is an integer exactly when it is an optional sign and one or more decimal
digits whose value is that of a 64-bit signed word. -/
def Obligations.IntegerTextsAreSignedDecimals : Prop :=
  ∀ (text : String) (v : Word), parseInt text = some v ↔
    ∃ (sign : List Char) (ds : List (Fin 10)),
      (sign = [] ∨ sign = ['+'] ∨ sign = ['-']) ∧ ds ≠ [] ∧
      text.toList = sign ++ ds.map (fun d => Char.ofNat ('0'.toNat + d.val)) ∧
      v.toInt = (if sign = ['-'] then -1 else 1) * ((Nat.ofDigits 10 (ds.reverse.map (fun d => d.val)) : Nat) : Int)

/-- 30_encoding.md R71, R72, 40_dispatch.md R92: in a loaded image every word that decodes has in each slot a tag and
a value that the load may write there. -/
def Obligations.LoadedWordsAreWellFormed : Prop :=
  ∀ (recs : List Record) (attached : Bool) (s : State) (w : Diw) (i : Instr),
    w ∈ (startRun recs attached s).prog → decode w = some i → i.wellFormed recs.length = true

/-- 30_encoding.md R65, R72: the word of a record. A marker, an unknown mnemonic, START and HLT get empty slots; in
every other word each slot is its operand text classified by the slot's kind, which R65's table, written out here,
gives the mnemonic. -/
def Obligations.RecordsDecodeIntoTheirWords : Prop :=
  (∀ (rec : Record) (labels : List (String × Nat)),
    (rec.operation = "" → diwOf rec labels = Diw.pack 0x1B#8 0 0 0 0 0) ∧
    (rec.operation ≠ "" → opcodeOf rec.operation ∈ [0xFF#8, 0x00#8, 0x1A#8] →
      diwOf rec labels = Diw.pack (opcodeOf rec.operation) 0 0 0 0 0) ∧
    (rec.operation ≠ "" → opcodeOf rec.operation ∉ [0xFF#8, 0x00#8, 0x1A#8] →
      (diwOf rec labels).opc = opcodeOf rec.operation ∧ (diwOf rec labels).rsv = 0 ∧
      (diwOf rec labels).slot1 = classify rec.op1 (opcodeSig (opcodeOf rec.operation).toNat).1 labels ∧
      (diwOf rec labels).slot2 = classify rec.op2 (opcodeSig (opcodeOf rec.operation).toNat).2 labels)) ∧
  (∀ (rec : Record) (labels : List (String × Nat)) (k1 k2 : OperandKind),
    (k1 = .int ∧ k2 = .none ∧ rec.operation ∈ ["LDC", "LDV", "STR"]) ∨
    (k1 = .int ∧ k2 = .int ∧ rec.operation ∈ ["ALLOC", "DALLOC"]) ∨
    (k1 = .label ∧ k2 = .none ∧ rec.operation ∈ ["JMP", "JMPF", "CALL"]) ∨
    (k1 = .none ∧ k2 = .none ∧ rec.operation ∈ ["ADD", "SUB", "MULT", "DIVI", "INV", "AND", "OR", "NEG", "CME", "CMA",
      "CEQ", "CDIF", "CMEQ", "CMAQ", "RD", "PRN", "RETURN"]) →
    (diwOf rec labels).slot1 = classify rec.op1 k1 labels ∧ (diwOf rec labels).slot2 = classify rec.op2 k2 labels) ∧
  (∀ (text : String) (labels : List (String × Nat)),
    (∀ k, classify none k labels = ⟨.absent, 0⟩) ∧ classify (some text) .none labels = ⟨.bad, 0⟩ ∧
    (∀ v, parseInt text = some v → classify (some text) .int labels = ⟨.int, v⟩) ∧
    (parseInt text = none → classify (some text) .int labels = ⟨.bad, 0⟩) ∧
    (∀ j, labelIndex labels text = some j → classify (some text) .label labels = ⟨.label, BitVec.ofNat 64 j⟩) ∧
    (labelIndex labels text = none → classify (some text) .label labels = ⟨.bad, 0⟩))

/-- 40_dispatch.md R90: the load, in IDLE only. It fails on a malformed line, an empty sequence, a first operation other
than `START`, and more than PROG_MAX records; otherwise the label map is the last-wins map, every record is decoded,
and the run starts at index 1 with an empty stack. (A malformed line is `none` here: log 15.) -/
def Obligations.LaunchLoadsAndStartsAtIndexOne : Prop :=
  (∀ (recs : Option (List Record)) (attached : Bool) (s : State), s.run ≠ .idle →
    hostAct (.launch recs attached) s = .next s) ∧
  ∀ (recs : List Record) (attached : Bool) (s : State), s.run = .idle →
    hostAct (.launch none attached) s =
      .next { s with run := .faulted, faultCode := .loadError, faultIp := 0, prog := [] } ∧
    (recs = [] ∨ (∃ r rest, recs = r :: rest ∧ r.operation ≠ "START") ∨ Config.progMax < recs.length →
      hostAct (.launch (some recs) attached) s =
        .next { s with run := .faulted, faultCode := .loadError, faultIp := 0, prog := [] }) ∧
    (∀ r rest, recs = r :: rest → r.operation = "START" → recs.length ≤ Config.progMax →
      ∃ t, hostAct (.launch (some recs) attached) s = .next t ∧
        t = { s with run := .running, ip := 1, sp := -1, ioAttached := attached, prog := t.prog, labels := t.labels } ∧
        t.len = recs.length ∧
        (∀ (j : Nat) (q : Record), recs[j]? = some q → t.prog[j]? = some (diwOf q t.labels)) ∧
        (∀ (name : String) (j : Nat), labelIndex t.labels name = some j ↔
          name ≠ "" ∧ recs[j]?.bind Record.label = some name ∧
          ∀ k : Nat, j < k → recs[k]?.bind Record.label ≠ some name))

/-! ## Reset, the run state, the host -/

/-- 70_reset_and_hazards.md R230, 10_state.md R39: reset, at any time, puts every piece of state at its after-reset
value, and a response to a transaction of the abandoned run, or of an earlier one, is ignored whenever it arrives, also
when a later launch has a request of its own in flight (the number by which a response says its run: log 25). The
values of `ioAttached` and of the model's own fields are not spoken of. -/
def Obligations.ResetRestoresEveryField : Prop :=
  ∀ s : State, ∃ t, hostAct .reset s = .next t ∧
    t.run = .idle ∧ t.ip = 0 ∧ t.sp = -1 ∧ t.startSp = -1 ∧ t.haltCause = false ∧ t.faultCode = .noFault ∧
    t.faultIp = 0 ∧ t.len = 0 ∧ t.prog = [] ∧ t.labels = [] ∧ t.inFlight = none ∧
    (∀ a : Int, 0 ≤ a → t.cell a = Config.initStack t.resetCount a.toNat) ∧
    (∀ (u : State) (run : Nat), Reaches t u → run ≤ s.resetCount →
      (∀ r, hostAct (.readResponse run r) u = .next u) ∧ (∀ r, hostAct (.writeResponse run r) u = .next u))

/-- The state after reset meets the invariant. -/
def Obligations.ResetStateSatisfiesInvariant : Prop := State.reset.Inv

/-- 10_state.md R21, R27, R33 to R39: every step keeps the invariant. -/
def Obligations.StepKeepsInvariant : Prop :=
  ∀ s t : State, s.Inv → step s = .next t → t.Inv

/-- The same for everything the host can do (60_exceptions.md R220). -/
def Obligations.HostActionsKeepInvariant : Prop :=
  ∀ (act : HostAction) (s t : State), s.Inv → hostAct act s = .next t → t.Inv

/-- 10_state.md R22, R27, 40_dispatch.md R96: from a state that meets the invariant the model never stops: every step
and every host action answers a next state. -/
def Obligations.InvariantStatesNeverStop : Prop :=
  ∀ s : State, s.Inv → (∃ t, step s = .next t) ∧ ∀ act, ∃ t, hostAct act s = .next t

/-- 10_state.md R36, R37, 20_memory.md R53: no step writes the image or the label map, and none detaches the channel,
resets, or draws other initial contents. -/
def Obligations.StepKeepsImageAndLabels : Prop :=
  ∀ s t : State, step s = .next t →
    t.prog = s.prog ∧ t.len = s.len ∧ t.labels = s.labels ∧ t.ioAttached = s.ioAttached ∧ t.resetCount = s.resetCount

/-- 70_reset_and_hazards.md R231: HALTED and FAULTED are left only by reset, and a launch is accepted only in IDLE. -/
def Obligations.EndedRunsAreLeftOnlyByReset : Prop :=
  (∀ s : State, s.run = .halted ∨ s.run = .faulted →
    step s = .next s ∧ (s.Inv → ∀ act, act ≠ .reset → hostAct act s = .next s)) ∧
  (∀ (s : State) (recs : Option (List Record)) (attached : Bool), s.run ≠ .idle →
    hostAct (.launch recs attached) s = .next s)

/-- 40_dispatch.md R97, 70_reset_and_hazards.md R234: a running state stops running only at the end of the image, by
HLT, or by a fault. -/
def Obligations.OnlyEndHltOrFaultEndARun : Prop :=
  ∀ s t : State, s.run = .running → step s = .next t → t.run ≠ .running →
    (t.run = .halted ∧ s.inFlight = none ∧
      ((s.ip = s.len ∧ t.haltCause = true) ∨
       (∃ w o1 o2, s.prog[s.ip]? = some w ∧ decode w = some (.hlt o1 o2) ∧ t.haltCause = false))) ∨
    (t.run = .faulted ∧ t.faultCode ≠ .noFault)

/-- 10_state.md R32: the layout of STATUS. -/
def Obligations.StatusWordLayout : Prop :=
  ∀ s : State,
    s.status.extractLsb' 0 2 = s.run.code ∧ s.status.getLsbD 2 = s.haltCause ∧ s.status.getLsbD 3 = false ∧
    s.status.extractLsb' 4 4 = s.faultCode.code ∧ s.status.extractLsb' 8 8 = 0#8

/-- 10_state.md R31, 60_exceptions.md R200: the codes of the run states and of the faults. -/
def Obligations.RunAndFaultCodes : Prop :=
  RunState.idle.code = 0b00#2 ∧ RunState.running.code = 0b01#2 ∧ RunState.halted.code = 0b10#2 ∧
  RunState.faulted.code = 0b11#2 ∧
  FaultCode.noFault.code = 0#4 ∧ FaultCode.loadError.code = 1#4 ∧ FaultCode.unknownOperation.code = 2#4 ∧
  FaultCode.operandTypeError.code = 3#4 ∧ FaultCode.labelNotFound.code = 4#4 ∧
  FaultCode.addressOutOfRange.code = 5#4 ∧ FaultCode.stackUnderflow.code = 6#4 ∧ FaultCode.stackOverflow.code = 7#4 ∧
  FaultCode.arithmeticError.code = 8#4 ∧ FaultCode.ipOutOfRange.code = 9#4 ∧ FaultCode.ioChannelError.code = 10#4

/-- 60_exceptions.md R220: the readout port answers only when `run` is not RUNNING, for `ip`, `sp` sign-extended to
64 bits, and the cells that exist. -/
def Obligations.ReadoutAnswersOnlyWhenNotRunning : Prop :=
  ∀ s : State,
    (s.run = .running → ∀ target, readout target s = none) ∧
    (s.run ≠ .running →
      readout .ip s = some (BitVec.ofNat 64 s.ip) ∧
      (s.SpInRange → ∃ v, readout .sp s = some v ∧ v.toInt = s.sp) ∧
      (∀ a : Int, 0 ≤ a → a ≤ Config.stackCap - 1 → readout (.cell a) s = some (s.cell a)) ∧
      (∀ a : Int, a < 0 ∨ Config.stackCap ≤ a → readout (.cell a) s = none))

/-! ## The cycle and the faults -/

/-- 40_dispatch.md R92: when the word at `ip` decodes to `i`, the step is `i`'s meaning on the state with `ip`
incremented. -/
def Obligations.StepRunsDecodedInstruction : Prop :=
  ∀ (s : State) (w : Diw) (i : Instr), s.run = .running → s.inFlight = none → s.prog[s.ip]? = some w →
    decode w = some i → step s = exec i { s with ip := s.ip + 1 }

/-- 40_dispatch.md R91: at `ip = len` the run ends, and nothing else changes. -/
def Obligations.EndOfImageHalts : Prop :=
  ∀ s : State, s.run = .running → s.inFlight = none → s.ip = s.len →
    step s = .next { s with run := .halted, haltCause := true }

/-- 40_dispatch.md R92: the operand check of the 25 table opcodes, before anything else of the instruction: kind and
presence in both slots first, then label resolution. -/
def Obligations.OperandCheckComesFirst : Prop :=
  ∀ (i : Instr) (s : State), i.sig.1 ≠ .ignored →
    (¬ (SlotKindOk i.sig.1 i.slot1 ∧ SlotKindOk i.sig.2 i.slot2) →
      exec i s = .next (faultEntry .operandTypeError s)) ∧
    (SlotKindOk i.sig.1 i.slot1 → SlotKindOk i.sig.2 i.slot2 →
      ¬ (SlotLabelOk i.sig.1 s.len i.slot1 ∧ SlotLabelOk i.sig.2 s.len i.slot2) →
      exec i s = .next (faultEntry .labelNotFound s))

/-- 60_exceptions.md R202: a fault is precise. `sp`, the stack and everything else are as before the instruction;
`ip` keeps the fetch increment; `fault_ip` is the instruction's index. Only an I/O fault has channel events behind it.
A load fault leaves index, length and status as the rule says. -/
def Obligations.FaultsArePreciseAndRecordTheirIndex : Prop :=
  (∀ s t : State, s.Inv → s.run = .running → step s = .next t → t.run = .faulted →
    t = { s with run := .faulted, faultCode := t.faultCode, faultIp := t.faultIp, ip := t.ip, inFlight := none
                 readAnswers := t.readAnswers, writeAnswers := t.writeAnswers, ioTrace := t.ioTrace } ∧
    t.faultCode ≠ .noFault ∧ t.ip = t.faultIp + 1 ∧
    (s.inFlight = none → t.faultIp = s.ip) ∧ (s.inFlight ≠ none → t.ip = s.ip) ∧
    (t.faultCode ≠ .ioChannelError →
      t.ioTrace = s.ioTrace ∧ t.readAnswers = s.readAnswers ∧ t.writeAnswers = s.writeAnswers)) ∧
  (∀ (s t : State) (recs : Option (List Record)) (attached : Bool), s.Inv → s.run = .idle →
    hostAct (.launch recs attached) s = .next t → t.run = .faulted →
    t.faultCode = .loadError ∧ t.faultIp = 0 ∧ t.len = 0 ∧ t.ip = 0 ∧ t.sp = -1 ∧ SameCells s t)

/-! ## Loop-handled instructions -/

/-- 40_dispatch.md R93, R94: START and the label marker do nothing beyond the fetch increment, whatever their slots
hold. -/
def Obligations.StartAndLabelMarkerAreNoOps : Prop :=
  ∀ (o1 o2 : Slot) (s : State),
    (Instr.start o1 o2).opcode = 0x00#8 ∧ (Instr.labelMarker o1 o2).opcode = 0x1B#8 ∧
    exec (.start o1 o2) s = .next s ∧ exec (.labelMarker o1 o2) s = .next s ∧
    ∀ w, s.run = .running → s.inFlight = none → s.prog[s.ip]? = some w →
      decode w = some (.start o1 o2) ∨ decode w = some (.labelMarker o1 o2) → step s = .next { s with ip := s.ip + 1 }

/-- 40_dispatch.md R95: HLT ends the run with `halt_cause = 0` after the fetch increment, whatever its slots hold. -/
def Obligations.HltHalts : Prop :=
  ∀ (o1 o2 : Slot) (s : State),
    (Instr.hlt o1 o2).opcode = 0x1A#8 ∧
    exec (.hlt o1 o2) s = .next { s with run := .halted, haltCause := false } ∧
    ∀ w, s.run = .running → s.inFlight = none → s.prog[s.ip]? = some w → decode w = some (.hlt o1 o2) →
      step s = .next { s with run := .halted, haltCause := false, ip := s.ip + 1 }

/-! ## Push and store -/

/-- 41_load_store.md R110: LDC. -/
def Obligations.LdcPushesItsLiteral : Prop :=
  ∀ (o1 o2 : Slot) (s : State), s.SpInRange →
    (Instr.ldc o1 o2).opcode = 0x01#8 ∧
    (¬ OneInt o1 o2 → exec (.ldc o1 o2) s = .next (faultEntry .operandTypeError s)) ∧
    (OneInt o1 o2 → s.sp = Config.stackCap - 1 → exec (.ldc o1 o2) s = .next (faultEntry .stackOverflow s)) ∧
    (OneInt o1 o2 → s.sp < Config.stackCap - 1 →
      ∃ t, exec (.ldc o1 o2) s = .next t ∧ t.sp = s.sp + 1 ∧ t.cell (s.sp + 1) = o1.val ∧
        SameCellsExcept (s.sp + 1) s t ∧ OnlyStackAndSp s t)

/-- 41_load_store.md R111: LDV; the address fault before the overflow (R201). -/
def Obligations.LdvPushesTheAddressedCell : Prop :=
  ∀ (o1 o2 : Slot) (s : State), s.SpInRange →
    (Instr.ldv o1 o2).opcode = 0x02#8 ∧
    (¬ OneInt o1 o2 → exec (.ldv o1 o2) s = .next (faultEntry .operandTypeError s)) ∧
    (OneInt o1 o2 → ¬ Config.inArray o1.val.toInt →
      exec (.ldv o1 o2) s = .next (faultEntry .addressOutOfRange s)) ∧
    (OneInt o1 o2 → Config.inArray o1.val.toInt → s.sp = Config.stackCap - 1 →
      exec (.ldv o1 o2) s = .next (faultEntry .stackOverflow s)) ∧
    (OneInt o1 o2 → Config.inArray o1.val.toInt → s.sp < Config.stackCap - 1 →
      ∃ t, exec (.ldv o1 o2) s = .next t ∧ t.sp = s.sp + 1 ∧ t.cell (s.sp + 1) = s.cell o1.val.toInt ∧
        SameCellsExcept (s.sp + 1) s t ∧ OnlyStackAndSp s t)

/-- 41_load_store.md R112: STR; the address fault before the underflow (R201). The cell stored to is the operand's. -/
def Obligations.StrPopsIntoTheAddressedCell : Prop :=
  ∀ (o1 o2 : Slot) (s : State), s.SpInRange →
    (Instr.str o1 o2).opcode = 0x17#8 ∧
    (¬ OneInt o1 o2 → exec (.str o1 o2) s = .next (faultEntry .operandTypeError s)) ∧
    (OneInt o1 o2 → ¬ Config.inArray o1.val.toInt →
      exec (.str o1 o2) s = .next (faultEntry .addressOutOfRange s)) ∧
    (OneInt o1 o2 → Config.inArray o1.val.toInt → s.sp < Config.startSp + 1 →
      exec (.str o1 o2) s = .next (faultEntry .stackUnderflow s)) ∧
    (OneInt o1 o2 → Config.inArray o1.val.toInt → Config.startSp + 1 ≤ s.sp →
      ∃ t, exec (.str o1 o2) s = .next t ∧ t.sp = s.sp - 1 ∧ t.cell o1.val.toInt = s.cell s.sp ∧
        SameCellsExcept o1.val.toInt s t ∧ OnlyStackAndSp s t)

/-- 20_memory.md R50, 10_state.md R26: what STR stores into a cell, LDV of that cell pushes, so the two in a row leave
the value on top where it was. -/
def Obligations.StoreThenLoadReturnsTheValue : Prop :=
  ∀ (o1 o2 : Slot) (s : State), s.SpInRange → OneInt o1 o2 → Config.inArray o1.val.toInt → Config.startSp + 1 ≤ s.sp →
    ∃ t u, exec (.str o1 o2) s = .next t ∧ exec (.ldv o1 o2) t = .next u ∧
      u.sp = s.sp ∧ u.cell u.sp = s.cell s.sp ∧ u.cell o1.val.toInt = s.cell s.sp

/-- 20_memory.md R45: LDV of a cell that nothing has written since reset pushes the cell's INIT_STACK value and
faults in no way. It holds for every value of the free field `resetCount` (log 3). -/
def Obligations.UnwrittenCellsReadInitStack : Prop :=
  ∀ (o1 o2 : Slot) (s : State), s.SpInRange → OneInt o1 o2 → Config.inArray o1.val.toInt →
    s.sp < Config.stackCap - 1 → s.stack.peek o1.val.toInt.toNat = none →
    ∃ t, exec (.ldv o1 o2) s = .next t ∧
      t.cell (s.sp + 1) = Config.initStack s.resetCount o1.val.toInt.toNat

/-! ## Arithmetic -/

/-- 00_scope.md R11: `wrap64 x` is the word in `[-2^63, 2^63-1]` that is congruent to `x` modulo `2^64`, and the only
one. -/
def Obligations.WrapIsTheCongruentWord : Prop :=
  ∀ (x : Int) (v : Word), v = wrap64 x ↔ ((2 : Int) ^ 64 ∣ v.toInt - x)

/-- 42_arithmetic.md R125, 00_scope.md R11: the quotient's magnitude and sign. -/
def Obligations.DivisionTruncatesTowardZero : Prop :=
  ∀ a b : Int, b ≠ 0 →
    (truncDiv a b).natAbs = a.natAbs / b.natAbs ∧ (0 ≤ a * b → 0 ≤ truncDiv a b) ∧ (a * b ≤ 0 → truncDiv a b ≤ 0)

/-- 42_arithmetic.md R120, R121, R122: ADD, SUB and MULT. -/
def Obligations.AddSubMultCombineTheTopTwo : Prop :=
  BinaryRule .add 0x03#8 (fun a b => wrap64 (a.toInt + b.toInt)) ∧
  BinaryRule .sub 0x04#8 (fun a b => wrap64 (a.toInt - b.toInt)) ∧
  BinaryRule .mult 0x05#8 (fun a b => wrap64 (a.toInt * b.toInt))

/-- 42_arithmetic.md R123: DIVI; the underflow before the zero divisor. -/
def Obligations.DiviDividesSecondByTop : Prop :=
  ∀ (o1 o2 : Slot) (s : State), s.SpInRange →
    (Instr.divi o1 o2).opcode = 0x06#8 ∧
    (¬ NoOperands o1 o2 → exec (.divi o1 o2) s = .next (faultEntry .operandTypeError s)) ∧
    (NoOperands o1 o2 → s.sp < Config.startSp + 2 → exec (.divi o1 o2) s = .next (faultEntry .stackUnderflow s)) ∧
    (NoOperands o1 o2 → Config.startSp + 2 ≤ s.sp → s.cell s.sp = 0#64 →
      exec (.divi o1 o2) s = .next (faultEntry .arithmeticError s)) ∧
    (NoOperands o1 o2 → Config.startSp + 2 ≤ s.sp → s.cell s.sp ≠ 0#64 →
      ∃ t, exec (.divi o1 o2) s = .next t ∧ t.sp = s.sp - 1 ∧
        t.cell (s.sp - 1) = wrap64 (truncDiv (s.cell (s.sp - 1)).toInt (s.cell s.sp).toInt) ∧
        SameCellsExcept (s.sp - 1) s t ∧ OnlyStackAndSp s t)

/-- 42_arithmetic.md R124, 43_logic.md R132: INV and NEG. -/
def Obligations.InvAndNegReplaceTheTop : Prop :=
  UnaryRule .inv 0x07#8 (fun x => wrap64 (0 - x.toInt)) ∧ UnaryRule .neg 0x0A#8 (fun x => wrap64 (1 - x.toInt))

/-- The corner cases of R124 and R132: INV twice, and NEG twice, restore every cell and everything else. -/
def Obligations.InvAndNegTwiceRestore : Prop :=
  ∀ (o1 o2 : Slot) (s : State), s.SpInRange → NoOperands o1 o2 → Config.startSp + 1 ≤ s.sp →
    (∃ t u, exec (.inv o1 o2) s = .next t ∧ exec (.inv o1 o2) t = .next u ∧ SameCells s u ∧ OnlyStackAndSp s u ∧
      u.sp = s.sp) ∧
    (∃ t u, exec (.neg o1 o2) s = .next t ∧ exec (.neg o1 o2) t = .next u ∧ SameCells s u ∧ OnlyStackAndSp s u ∧
      u.sp = s.sp)

/-! ## Logic and comparison -/

/-- 43_logic.md R130, R131: AND and OR, by strict equality to 1. -/
def Obligations.AndOrTestEqualityToOne : Prop :=
  BinaryRule .and 0x08#8 (fun a b => if a = 1#64 ∧ b = 1#64 then 1#64 else 0#64) ∧
  BinaryRule .or 0x09#8 (fun a b => if a = 1#64 ∨ b = 1#64 then 1#64 else 0#64)

/-- 44_compare.md R140 to R145: the six comparisons, signed. -/
def Obligations.ComparisonsReplaceTheTopTwoByTheirTruth : Prop :=
  BinaryRule .cme 0x0B#8 (fun a b => if a.toInt < b.toInt then 1#64 else 0#64) ∧
  BinaryRule .cma 0x0C#8 (fun a b => if b.toInt < a.toInt then 1#64 else 0#64) ∧
  BinaryRule .ceq 0x0D#8 (fun a b => if a.toInt = b.toInt then 1#64 else 0#64) ∧
  BinaryRule .cdif 0x0E#8 (fun a b => if a.toInt ≠ b.toInt then 1#64 else 0#64) ∧
  BinaryRule .cmeq 0x0F#8 (fun a b => if a.toInt ≤ b.toInt then 1#64 else 0#64) ∧
  BinaryRule .cmaq 0x10#8 (fun a b => if b.toInt ≤ a.toInt then 1#64 else 0#64)

/-- The corner cases of 44_compare.md R143, R144, R145: CDIF, CMEQ and CMAQ give 1 minus what CEQ, CMA and CME give. -/
def Obligations.ComparisonsComplementEachOther : Prop :=
  ∀ (o1 o2 : Slot) (s : State), s.SpInRange → NoOperands o1 o2 → Config.startSp + 2 ≤ s.sp →
    (∃ t u, exec (.ceq o1 o2) s = .next t ∧ exec (.cdif o1 o2) s = .next u ∧ u.cell u.sp = 1#64 - t.cell t.sp) ∧
    (∃ t u, exec (.cma o1 o2) s = .next t ∧ exec (.cmeq o1 o2) s = .next u ∧ u.cell u.sp = 1#64 - t.cell t.sp) ∧
    (∃ t u, exec (.cme o1 o2) s = .next t ∧ exec (.cmaq o1 o2) s = .next u ∧ u.cell u.sp = 1#64 - t.cell t.sp)

/-! ## Control transfer -/

/-- 45_branch_call.md R150: JMP; the stack is neither read nor changed. -/
def Obligations.JmpSetsIp : Prop :=
  LabelOperandFaults .jmp ∧
  ∀ (o1 o2 : Slot) (s : State), (Instr.jmp o1 o2).opcode = 0x11#8 ∧
    (OneLabel s.len o1 o2 → exec (.jmp o1 o2) s = .next { s with ip := o1.val.toNat })

/-- 45_branch_call.md R151: JMPF pops in both cases and jumps on 0 alone; it stores nothing. -/
def Obligations.JmpfPopsAndBranchesOnZero : Prop :=
  LabelOperandFaults .jmpf ∧
  ∀ (o1 o2 : Slot) (s : State), s.SpInRange → OneLabel s.len o1 o2 →
    (Instr.jmpf o1 o2).opcode = 0x12#8 ∧
    (s.sp < Config.startSp + 1 → exec (.jmpf o1 o2) s = .next (faultEntry .stackUnderflow s)) ∧
    (Config.startSp + 1 ≤ s.sp → s.cell s.sp = 0#64 →
      exec (.jmpf o1 o2) s = .next { s with sp := s.sp - 1, ip := o1.val.toNat }) ∧
    (Config.startSp + 1 ≤ s.sp → s.cell s.sp ≠ 0#64 →
      exec (.jmpf o1 o2) s = .next { s with sp := s.sp - 1 })

/-- 45_branch_call.md R152: CALL pushes `ip`, already past the CALL, and jumps. -/
def Obligations.CallPushesTheReturnIndex : Prop :=
  LabelOperandFaults .call ∧
  ∀ (o1 o2 : Slot) (s : State), s.SpInRange → OneLabel s.len o1 o2 →
    (Instr.call o1 o2).opcode = 0x18#8 ∧
    (s.sp = Config.stackCap - 1 → exec (.call o1 o2) s = .next (faultEntry .stackOverflow s)) ∧
    (s.sp < Config.stackCap - 1 →
      ∃ t, exec (.call o1 o2) s = .next t ∧ t.sp = s.sp + 1 ∧ t.cell (s.sp + 1) = BitVec.ofNat 64 s.ip ∧
        t.ip = o1.val.toNat ∧ SameCellsExcept (s.sp + 1) s t ∧ OnlyStackSpAndIp s t)

/-- 45_branch_call.md R153: RETURN pops into `ip` what lies in `[0, len]`; it stores nothing. -/
def Obligations.ReturnPopsIntoIp : Prop :=
  ∀ (o1 o2 : Slot) (s : State), s.SpInRange →
    (Instr.ret o1 o2).opcode = 0x19#8 ∧
    (¬ NoOperands o1 o2 → exec (.ret o1 o2) s = .next (faultEntry .operandTypeError s)) ∧
    (NoOperands o1 o2 → s.sp < Config.startSp + 1 → exec (.ret o1 o2) s = .next (faultEntry .stackUnderflow s)) ∧
    (NoOperands o1 o2 → Config.startSp + 1 ≤ s.sp → (s.cell s.sp).toInt < 0 ∨ (s.len : Int) < (s.cell s.sp).toInt →
      exec (.ret o1 o2) s = .next (faultEntry .ipOutOfRange s)) ∧
    (NoOperands o1 o2 → Config.startSp + 1 ≤ s.sp → 0 ≤ (s.cell s.sp).toInt → (s.cell s.sp).toInt ≤ s.len →
      exec (.ret o1 o2) s = .next { s with sp := s.sp - 1, ip := (s.cell s.sp).toInt.toNat })

/-- 45_branch_call.md R155: the call and return round trip. After CALL at `s` (the state after its fetch, so `s.ip` is
the return index), any later state of the same image whose top is the cell that CALL pushed, unchanged, returns to
`s.ip` and to the stack pointer before the CALL. `len < 2^63` is log 1's: the return index must be a non-negative
word. -/
def Obligations.CallReturnRoundTrip : Prop :=
  ∀ (o1 o2 p1 p2 : Slot) (s : State), s.SpInRange → s.ip ≤ s.len → s.len < 2 ^ 63 → OneLabel s.len o1 o2 →
    NoOperands p1 p2 → s.sp < Config.stackCap - 1 →
    ∃ t, exec (.call o1 o2) s = .next t ∧
      ∀ u : State, u.sp = t.sp → u.cell u.sp = t.cell t.sp → u.len = t.len →
        ∃ w, exec (.ret p1 p2) u = .next w ∧ w.ip = s.ip ∧ w.sp = s.sp ∧ SameCells u w

/-! ## Frame -/

/-- 46_frame.md R160: ALLOC. The range fault comes before the overflow; otherwise the block above the old top holds,
cell by cell, what its source held when it was read: the source's new value where an earlier push of the same ALLOC
wrote it, else its old value. -/
def Obligations.AllocPushesTheRange : Prop :=
  ∀ (o1 o2 : Slot) (s : State), s.SpInRange →
    (Instr.alloc o1 o2).opcode = 0x13#8 ∧
    (¬ TwoInts o1 o2 → exec (.alloc o1 o2) s = .next (faultEntry .operandTypeError s)) ∧
    (TwoInts o1 o2 → ¬ RangeAccepted o1.val.toInt o2.val.toInt →
      exec (.alloc o1 o2) s = .next (faultEntry .addressOutOfRange s)) ∧
    (TwoInts o1 o2 → RangeAccepted o1.val.toInt o2.val.toInt → Config.stackCap - 1 < s.sp + o2.val.toInt →
      exec (.alloc o1 o2) s = .next (faultEntry .stackOverflow s)) ∧
    (TwoInts o1 o2 → RangeAccepted o1.val.toInt o2.val.toInt → s.sp + o2.val.toInt ≤ Config.stackCap - 1 →
      ∃ t, exec (.alloc o1 o2) s = .next t ∧ t.sp = s.sp + o2.val.toInt ∧
        (∀ k : Int, 0 ≤ k → k < o2.val.toInt → t.cell (s.sp + 1 + k) =
          if s.sp < o1.val.toInt + k ∧ o1.val.toInt + k < s.sp + 1 + k then t.cell (o1.val.toInt + k)
          else s.cell (o1.val.toInt + k)) ∧
        (∀ a : Int, 0 ≤ a → a ≤ s.sp ∨ s.sp + o2.val.toInt < a → t.cell a = s.cell a) ∧ OnlyStackAndSp s t)

/-- 46_frame.md R161: DALLOC. The range fault comes before the underflow; otherwise the top goes to the highest cell of
the range, and each cell of the range holds what its source held when it was popped. -/
def Obligations.DallocPopsIntoTheRange : Prop :=
  ∀ (o1 o2 : Slot) (s : State), s.SpInRange →
    (Instr.dalloc o1 o2).opcode = 0x14#8 ∧
    (¬ TwoInts o1 o2 → exec (.dalloc o1 o2) s = .next (faultEntry .operandTypeError s)) ∧
    (TwoInts o1 o2 → ¬ RangeAccepted o1.val.toInt o2.val.toInt →
      exec (.dalloc o1 o2) s = .next (faultEntry .addressOutOfRange s)) ∧
    (TwoInts o1 o2 → RangeAccepted o1.val.toInt o2.val.toInt → s.sp - Config.startSp < o2.val.toInt →
      exec (.dalloc o1 o2) s = .next (faultEntry .stackUnderflow s)) ∧
    (TwoInts o1 o2 → RangeAccepted o1.val.toInt o2.val.toInt → o2.val.toInt ≤ s.sp - Config.startSp →
      ∃ t, exec (.dalloc o1 o2) s = .next t ∧ t.sp = s.sp - o2.val.toInt ∧
        (∀ k : Int, 0 ≤ k → k < o2.val.toInt → t.cell (o1.val.toInt + k) =
          if o1.val.toInt + k < s.sp - o2.val.toInt + 1 + k ∧
              s.sp - o2.val.toInt + 1 + k ≤ o1.val.toInt + o2.val.toInt - 1
          then t.cell (s.sp - o2.val.toInt + 1 + k) else s.cell (s.sp - o2.val.toInt + 1 + k)) ∧
        (∀ a : Int, 0 ≤ a → a < o1.val.toInt ∨ o1.val.toInt + o2.val.toInt ≤ a → t.cell a = s.cell a) ∧
        OnlyStackAndSp s t)

/-- 46_frame.md R162: the round-trip law. DALLOC right after an ALLOC that did not fault, with the same operands: `sp`
is restored, and where the range does not straddle the old top, so are the cells of the range. `j` is whatever index
the DALLOC's own fetch leaves in `ip`. -/
def Obligations.AllocDallocRoundTrip : Prop :=
  ∀ (o1 o2 p1 p2 : Slot) (s : State) (j : Nat), s.SpInRange → TwoInts o1 o2 → TwoInts p1 p2 → p1.val = o1.val →
    p2.val = o2.val → RangeAccepted o1.val.toInt o2.val.toInt → s.sp + o2.val.toInt ≤ Config.stackCap - 1 →
    ∃ t u, exec (.alloc o1 o2) s = .next t ∧ exec (.dalloc p1 p2) (t.setIp j) = .next u ∧
      u.sp = s.sp ∧
      (s.sp + 1 ≤ o1.val.toInt ∨ o1.val.toInt + o2.val.toInt - 1 ≤ s.sp →
        ∀ k : Int, 0 ≤ k → k < o2.val.toInt → u.cell (o1.val.toInt + k) = s.cell (o1.val.toInt + k))

/-- 46_frame.md R163: ALLOC is a copy of a snapshot where the range does not straddle the old top, and where it does,
the cell after the old top has been written before it is read, so the block begins with the same value twice when the
range begins at the top. -/
def Obligations.AllocCopiesASnapshotUnlessStraddling : Prop :=
  ∀ (o1 o2 : Slot) (s : State), s.SpInRange → TwoInts o1 o2 → RangeAccepted o1.val.toInt o2.val.toInt →
    s.sp + o2.val.toInt ≤ Config.stackCap - 1 →
    ∃ t, exec (.alloc o1 o2) s = .next t ∧
      (s.sp < o1.val.toInt ∨ o1.val.toInt + o2.val.toInt - 1 ≤ s.sp →
        ∀ k : Int, 0 ≤ k → k < o2.val.toInt → t.cell (s.sp + 1 + k) = s.cell (o1.val.toInt + k)) ∧
      (o1.val.toInt = s.sp → 2 ≤ o2.val.toInt →
        ∀ k : Int, 0 ≤ k → k < o2.val.toInt → t.cell (s.sp + 1 + k) = s.cell s.sp)

/-! ## The I/O channel -/

/-- 47_io.md R171: RD. The stack is checked before the channel, the channel before the request; a value is pushed, an
error faults with nothing pushed, and without an answer the request stays in flight (logs 7, 9). -/
def Obligations.RdPushesTheHostsValue : Prop :=
  ∀ (o1 o2 : Slot) (s : State), s.SpInRange →
    (Instr.rd o1 o2).opcode = 0x15#8 ∧
    (¬ NoOperands o1 o2 → exec (.rd o1 o2) s = .next (faultEntry .operandTypeError s)) ∧
    (NoOperands o1 o2 → s.sp = Config.stackCap - 1 → exec (.rd o1 o2) s = .next (faultEntry .stackOverflow s)) ∧
    (NoOperands o1 o2 → s.sp < Config.stackCap - 1 → s.ioAttached = false →
      exec (.rd o1 o2) s = .next (faultEntry .ioChannelError s)) ∧
    (NoOperands o1 o2 → s.sp < Config.stackCap - 1 → s.ioAttached = true →
      (∀ v rest, s.readAnswers = .value v :: rest →
        ∃ t, exec (.rd o1 o2) s = .next t ∧ t.sp = s.sp + 1 ∧ t.cell (s.sp + 1) = v ∧
          SameCellsExcept (s.sp + 1) s t ∧
          t = { s with stack := t.stack, sp := t.sp, inFlight := none, readAnswers := rest
                       ioTrace := s.ioTrace ++ [.rdReq, .rdResp (.value v)] }) ∧
      (∀ rest, s.readAnswers = .error :: rest →
        exec (.rd o1 o2) s = .next { s with run := .faulted, faultCode := .ioChannelError, faultIp := s.ip - 1
                                            inFlight := none, readAnswers := rest
                                            ioTrace := s.ioTrace ++ [.rdReq, .rdResp .error] }) ∧
      (s.readAnswers = [] →
        exec (.rd o1 o2) s = .next { s with inFlight := some .rdReq, ioTrace := s.ioTrace ++ [.rdReq] }))

/-- 47_io.md R172: PRN. It sends the top; `Ok` pops it, an error faults with `sp` as before and the request sent, and
without an answer the request stays in flight; no cell is written (logs 7, 9). -/
def Obligations.PrnSendsTheTop : Prop :=
  ∀ (o1 o2 : Slot) (s : State), s.SpInRange →
    (Instr.prn o1 o2).opcode = 0x16#8 ∧
    (¬ NoOperands o1 o2 → exec (.prn o1 o2) s = .next (faultEntry .operandTypeError s)) ∧
    (NoOperands o1 o2 → s.sp < Config.startSp + 1 → exec (.prn o1 o2) s = .next (faultEntry .stackUnderflow s)) ∧
    (NoOperands o1 o2 → Config.startSp + 1 ≤ s.sp → s.ioAttached = false →
      exec (.prn o1 o2) s = .next (faultEntry .ioChannelError s)) ∧
    (NoOperands o1 o2 → Config.startSp + 1 ≤ s.sp → s.ioAttached = true →
      (∀ rest, s.writeAnswers = .ok :: rest →
        exec (.prn o1 o2) s = .next { s with sp := s.sp - 1, inFlight := none, writeAnswers := rest
                                             ioTrace := s.ioTrace ++ [.wrReq (s.cell s.sp), .wrResp .ok] }) ∧
      (∀ rest, s.writeAnswers = .error :: rest →
        exec (.prn o1 o2) s = .next { s with run := .faulted, faultCode := .ioChannelError, faultIp := s.ip - 1
                                             inFlight := none, writeAnswers := rest
                                             ioTrace := s.ioTrace ++ [.wrReq (s.cell s.sp), .wrResp .error] }) ∧
      (s.writeAnswers = [] →
        exec (.prn o1 o2) s = .next { s with inFlight := some (.wrReq (s.cell s.sp))
                                             ioTrace := s.ioTrace ++ [.wrReq (s.cell s.sp)] }))

/-- 47_io.md R173: on a detached channel no step issues a transaction, and RD and PRN fault with IOChannelError once
their stack checks have passed. -/
def Obligations.DetachedChannelIssuesNothing : Prop :=
  (∀ s t : State, s.ioAttached = false → s.inFlight = none → step s = .next t →
    t.inFlight = none ∧ t.ioTrace = s.ioTrace) ∧
  (∀ (o1 o2 : Slot) (s : State), s.ioAttached = false → NoOperands o1 o2 → s.SpInRange →
    (s.sp < Config.stackCap - 1 → exec (.rd o1 o2) s = .next (faultEntry .ioChannelError s)) ∧
    (Config.startSp + 1 ≤ s.sp → exec (.prn o1 o2) s = .next (faultEntry .ioChannelError s)))

/-- 47_io.md R170, R174: only RD and PRN put events on the channel, and a step never takes one back. -/
def Obligations.OnlyRdAndPrnUseTheChannel : Prop :=
  ∀ s t : State, step s = .next t →
    ∃ es, t.ioTrace = s.ioTrace ++ es ∧
      (es ≠ [] → s.inFlight ≠ none ∨
        ∃ w o1 o2, s.prog[s.ip]? = some w ∧ (decode w = some (.rd o1 o2) ∨ decode w = some (.prn o1 o2)))

/-- 10_state.md R38: while no answer is there, a waiting RD or PRN leaves everything as it is; no bound. -/
def Obligations.WaitingChangesNothing : Prop :=
  ∀ s : State, s.run = .running →
    (s.inFlight = some .rdReq → s.readAnswers = [] → step s = .next s) ∧
    (∀ v, s.inFlight = some (.wrReq v) → s.writeAnswers = [] → step s = .next s)

/-- 47_io.md R170, R171, R172, 60_exceptions.md R220: an answer that comes while the instruction waits has the effect
the same answer has when it is there at once, whether the host's response action or the next step delivers it
(logs 7, 9). -/
def Obligations.LateAnswerActsAsReadyAnswer : Prop :=
  ∀ (o1 o2 : Slot) (s : State), s.SpInRange → s.run = .running → s.ioAttached = true → NoOperands o1 o2 →
    (∀ r, s.readAnswers = [] → s.sp < Config.stackCap - 1 →
      ∃ t u, exec (.rd o1 o2) s = .next t ∧ exec (.rd o1 o2) { s with readAnswers := [r] } = .next u ∧
        hostAct (.readResponse s.resetCount r) t = .next u ∧ step { t with readAnswers := [r] } = .next u) ∧
    (∀ r, s.writeAnswers = [] → Config.startSp + 1 ≤ s.sp →
      ∃ t u, exec (.prn o1 o2) s = .next t ∧ exec (.prn o1 o2) { s with writeAnswers := [r] } = .next u ∧
        hostAct (.writeResponse s.resetCount r) t = .next u ∧ step { t with writeAnswers := [r] } = .next u)

/-- 60_exceptions.md R220, 47_io.md R171, R172: a response to the request in flight completes RD or PRN, and one with no
such request in flight changes nothing. -/
def Obligations.ResponsesCompleteTheRequestInFlight : Prop :=
  ∀ s : State, s.Inv →
    (∀ v, s.inFlight = some .rdReq →
      ∃ t, hostAct (.readResponse s.resetCount (.value v)) s = .next t ∧ t.sp = s.sp + 1 ∧ t.cell (s.sp + 1) = v ∧
        SameCellsExcept (s.sp + 1) s t ∧
        t = { s with stack := t.stack, sp := t.sp, inFlight := none, ioTrace := s.ioTrace ++ [.rdResp (.value v)] }) ∧
    (s.inFlight = some .rdReq →
      hostAct (.readResponse s.resetCount .error) s =
        .next { s with run := .faulted, faultCode := .ioChannelError, faultIp := s.ip - 1, inFlight := none
                       ioTrace := s.ioTrace ++ [.rdResp .error] }) ∧
    (∀ v, s.inFlight = some (.wrReq v) →
      hostAct (.writeResponse s.resetCount .ok) s =
        .next { s with sp := s.sp - 1, inFlight := none, ioTrace := s.ioTrace ++ [.wrResp .ok] } ∧
      hostAct (.writeResponse s.resetCount .error) s =
        .next { s with run := .faulted, faultCode := .ioChannelError, faultIp := s.ip - 1, inFlight := none
                       ioTrace := s.ioTrace ++ [.wrResp .error] }) ∧
    (s.inFlight ≠ some .rdReq → ∀ run r, hostAct (.readResponse run r) s = .next s) ∧
    ((∀ v, s.inFlight ≠ some (.wrReq v)) → ∀ run r, hostAct (.writeResponse run r) s = .next s)
end

