-- ==== Sys2Proof/Laws/Decode.lean ====
section
/-! SUPPORT. The fields of a packed DIW, and the tag codes (spec/30_encoding.md R70, R71). -/

namespace Sys2Proof

theorem ofBits_bits (t : Tag) : Tag.ofBits t.bits = t := by cases t <;> rfl

theorem bits_ofBits (b : BitVec 2) : (Tag.ofBits b).bits = b := by
  revert b; decide

section
variable (opc : BitVec 8) (t1 t2 : BitVec 2) (rsv : BitVec 4) (v1 v2 : Word)

/-- Bit by bit, the layout of R70. -/
theorem pack_bit (i : Nat) : (Diw.pack opc t1 t2 rsv v1 v2).getLsbD i =
    if i < 8 then opc.getLsbD i else if i < 10 then t1.getLsbD (i - 8) else if i < 12 then t2.getLsbD (i - 10)
    else if i < 16 then rsv.getLsbD (i - 12) else if i < 80 then v1.getLsbD (i - 16) else v2.getLsbD (i - 80) := by
  change (((((v2 ++ v1) ++ rsv) ++ t2) ++ t1) ++ opc : BitVec (64 + 64 + 4 + 2 + 2 + 8)).getLsbD i = _
  simp only [BitVec.getLsbD_append, Nat.sub_sub]
  split_ifs <;> first | omega | rfl

@[simp] theorem pack_opc : (Diw.pack opc t1 t2 rsv v1 v2).opc = opc := by
  refine BitVec.eq_of_getLsbD_eq fun i hi => ?_
  simp [hi, Diw.opc, pack_bit]

@[simp] theorem pack_t1 : (Diw.pack opc t1 t2 rsv v1 v2).t1 = t1 := by
  refine BitVec.eq_of_getLsbD_eq fun i hi => ?_
  simp [hi, Diw.t1, pack_bit, show 8 + i < 10 by omega]

@[simp] theorem pack_t2 : (Diw.pack opc t1 t2 rsv v1 v2).t2 = t2 := by
  refine BitVec.eq_of_getLsbD_eq fun i hi => ?_
  simp [hi, Diw.t2, pack_bit, show ¬ 10 + i < 8 by omega, show 10 + i < 12 by omega]

@[simp] theorem pack_rsv : (Diw.pack opc t1 t2 rsv v1 v2).rsv = rsv := by
  refine BitVec.eq_of_getLsbD_eq fun i hi => ?_
  simp [hi, Diw.rsv, pack_bit, show ¬ 12 + i < 8 by omega, show ¬ 12 + i < 10 by omega,
    show 12 + i < 16 by omega]

@[simp] theorem pack_v1 : (Diw.pack opc t1 t2 rsv v1 v2).v1 = v1 := by
  refine BitVec.eq_of_getLsbD_eq fun i hi => ?_
  simp [hi, Diw.v1, pack_bit, show ¬ 16 + i < 8 by omega, show ¬ 16 + i < 10 by omega,
    show ¬ 16 + i < 12 by omega, show 16 + i < 80 by omega]

@[simp] theorem pack_v2 : (Diw.pack opc t1 t2 rsv v1 v2).v2 = v2 := by
  refine BitVec.eq_of_getLsbD_eq fun i hi => ?_
  simp [hi, Diw.v2, pack_bit, show ¬ 80 + i < 8 by omega, show ¬ 80 + i < 10 by omega,
    show ¬ 80 + i < 12 by omega, show ¬ 80 + i < 16 by omega]

end

/-- A DIW is what its fields pack to: no bit of it is outside them. -/
theorem pack_fields (w : Diw) : Diw.pack w.opc w.t1 w.t2 w.rsv w.v1 w.v2 = w := by
  refine BitVec.eq_of_getLsbD_eq fun i hi => ?_
  rw [pack_bit]
  simp only [Diw.opc, Diw.t1, Diw.t2, Diw.rsv, Diw.v1, Diw.v2, BitVec.getLsbD_extractLsb']
  split_ifs <;> rw [decide_eq_true (by omega), Bool.true_and] <;> congr 1 <;> omega

/-- The header's masked part is `opc` below, zeros, and `rsv` on top (R74). -/
theorem header_mask (w : Diw) : w.header &&& 0xF0FF#16 = w.rsv ++ 0#4 ++ w.opc := by
  have hm : ∀ i < 16, (0xF0FF#16).getLsbD i = (decide (i < 8) || decide (12 ≤ i)) := by decide
  refine BitVec.eq_of_getLsbD_eq fun i hi => ?_
  rw [BitVec.getLsbD_and, hm i hi]
  simp only [Diw.header, Diw.rsv, Diw.opc, BitVec.getLsbD_extractLsb', BitVec.getLsbD_append, Nat.sub_sub]
  by_cases h8 : i < 8
  · simp [h8, hi]
  · by_cases h12 : i < 12
    · simp [h8, show ¬ 12 ≤ i by omega, show i - 8 < 4 by omega]
    · simp [h8, hi, show 12 ≤ i by omega, show ¬ i - 8 < 4 by omega, show i - 12 < 4 by omega,
        show 12 + (i - 12) = i by omega]

end Sys2Proof
end

