-- ==== Sys2Proof/Laws/State.lean ====
section
/-! SUPPORT. One lemma per field of State and per named update of it, so that no later proof unfolds an update. -/

namespace Sys2Proof.Machine

/-! ### setSp -/

@[simp] theorem setSp_run (s : State) (v : Int) : (s.setSp v).run = s.run := rfl
@[simp] theorem setSp_ip (s : State) (v : Int) : (s.setSp v).ip = s.ip := rfl
@[simp] theorem setSp_sp (s : State) (v : Int) : (s.setSp v).sp = v := rfl
@[simp] theorem setSp_stack (s : State) (v : Int) : (s.setSp v).stack = s.stack := rfl
@[simp] theorem setSp_resetCount (s : State) (v : Int) : (s.setSp v).resetCount = s.resetCount := rfl
@[simp] theorem setSp_haltCause (s : State) (v : Int) : (s.setSp v).haltCause = s.haltCause := rfl
@[simp] theorem setSp_faultCode (s : State) (v : Int) : (s.setSp v).faultCode = s.faultCode := rfl
@[simp] theorem setSp_faultIp (s : State) (v : Int) : (s.setSp v).faultIp = s.faultIp := rfl
@[simp] theorem setSp_prog (s : State) (v : Int) : (s.setSp v).prog = s.prog := rfl
@[simp] theorem setSp_labels (s : State) (v : Int) : (s.setSp v).labels = s.labels := rfl
@[simp] theorem setSp_inFlight (s : State) (v : Int) : (s.setSp v).inFlight = s.inFlight := rfl
@[simp] theorem setSp_ioAttached (s : State) (v : Int) : (s.setSp v).ioAttached = s.ioAttached := rfl
@[simp] theorem setSp_readAnswers (s : State) (v : Int) : (s.setSp v).readAnswers = s.readAnswers := rfl
@[simp] theorem setSp_writeAnswers (s : State) (v : Int) : (s.setSp v).writeAnswers = s.writeAnswers := rfl
@[simp] theorem setSp_ioTrace (s : State) (v : Int) : (s.setSp v).ioTrace = s.ioTrace := rfl
@[simp] theorem setSp_len (s : State) (v : Int) : (s.setSp v).len = s.len := rfl
@[simp] theorem setSp_cell (s : State) (v : Int) (x : Int) : (s.setSp v).cell x = s.cell x := rfl

/-! ### setIp -/

@[simp] theorem setIp_run (s : State) (v : Nat) : (s.setIp v).run = s.run := rfl
@[simp] theorem setIp_ip (s : State) (v : Nat) : (s.setIp v).ip = v := rfl
@[simp] theorem setIp_sp (s : State) (v : Nat) : (s.setIp v).sp = s.sp := rfl
@[simp] theorem setIp_stack (s : State) (v : Nat) : (s.setIp v).stack = s.stack := rfl
@[simp] theorem setIp_resetCount (s : State) (v : Nat) : (s.setIp v).resetCount = s.resetCount := rfl
@[simp] theorem setIp_haltCause (s : State) (v : Nat) : (s.setIp v).haltCause = s.haltCause := rfl
@[simp] theorem setIp_faultCode (s : State) (v : Nat) : (s.setIp v).faultCode = s.faultCode := rfl
@[simp] theorem setIp_faultIp (s : State) (v : Nat) : (s.setIp v).faultIp = s.faultIp := rfl
@[simp] theorem setIp_prog (s : State) (v : Nat) : (s.setIp v).prog = s.prog := rfl
@[simp] theorem setIp_labels (s : State) (v : Nat) : (s.setIp v).labels = s.labels := rfl
@[simp] theorem setIp_inFlight (s : State) (v : Nat) : (s.setIp v).inFlight = s.inFlight := rfl
@[simp] theorem setIp_ioAttached (s : State) (v : Nat) : (s.setIp v).ioAttached = s.ioAttached := rfl
@[simp] theorem setIp_readAnswers (s : State) (v : Nat) : (s.setIp v).readAnswers = s.readAnswers := rfl
@[simp] theorem setIp_writeAnswers (s : State) (v : Nat) : (s.setIp v).writeAnswers = s.writeAnswers := rfl
@[simp] theorem setIp_ioTrace (s : State) (v : Nat) : (s.setIp v).ioTrace = s.ioTrace := rfl
@[simp] theorem setIp_len (s : State) (v : Nat) : (s.setIp v).len = s.len := rfl
@[simp] theorem setIp_cell (s : State) (v : Nat) (x : Int) : (s.setIp v).cell x = s.cell x := rfl

/-! ### advance -/

@[simp] theorem advance_run (s : State) : s.advance.run = s.run := rfl
@[simp] theorem advance_ip (s : State) : s.advance.ip = s.ip + 1 := rfl
@[simp] theorem advance_sp (s : State) : s.advance.sp = s.sp := rfl
@[simp] theorem advance_stack (s : State) : s.advance.stack = s.stack := rfl
@[simp] theorem advance_resetCount (s : State) : s.advance.resetCount = s.resetCount := rfl
@[simp] theorem advance_haltCause (s : State) : s.advance.haltCause = s.haltCause := rfl
@[simp] theorem advance_faultCode (s : State) : s.advance.faultCode = s.faultCode := rfl
@[simp] theorem advance_faultIp (s : State) : s.advance.faultIp = s.faultIp := rfl
@[simp] theorem advance_prog (s : State) : s.advance.prog = s.prog := rfl
@[simp] theorem advance_labels (s : State) : s.advance.labels = s.labels := rfl
@[simp] theorem advance_inFlight (s : State) : s.advance.inFlight = s.inFlight := rfl
@[simp] theorem advance_ioAttached (s : State) : s.advance.ioAttached = s.ioAttached := rfl
@[simp] theorem advance_readAnswers (s : State) : s.advance.readAnswers = s.readAnswers := rfl
@[simp] theorem advance_writeAnswers (s : State) : s.advance.writeAnswers = s.writeAnswers := rfl
@[simp] theorem advance_ioTrace (s : State) : s.advance.ioTrace = s.ioTrace := rfl
@[simp] theorem advance_len (s : State) : s.advance.len = s.len := rfl
@[simp] theorem advance_cell (s : State) (x : Int) : s.advance.cell x = s.cell x := rfl

/-! ### halt -/

@[simp] theorem halt_run (s : State) (c : Bool) : (s.halt c).run = .halted := rfl
@[simp] theorem halt_ip (s : State) (c : Bool) : (s.halt c).ip = s.ip := rfl
@[simp] theorem halt_sp (s : State) (c : Bool) : (s.halt c).sp = s.sp := rfl
@[simp] theorem halt_stack (s : State) (c : Bool) : (s.halt c).stack = s.stack := rfl
@[simp] theorem halt_resetCount (s : State) (c : Bool) : (s.halt c).resetCount = s.resetCount := rfl
@[simp] theorem halt_haltCause (s : State) (c : Bool) : (s.halt c).haltCause = c := rfl
@[simp] theorem halt_faultCode (s : State) (c : Bool) : (s.halt c).faultCode = s.faultCode := rfl
@[simp] theorem halt_faultIp (s : State) (c : Bool) : (s.halt c).faultIp = s.faultIp := rfl
@[simp] theorem halt_prog (s : State) (c : Bool) : (s.halt c).prog = s.prog := rfl
@[simp] theorem halt_labels (s : State) (c : Bool) : (s.halt c).labels = s.labels := rfl
@[simp] theorem halt_inFlight (s : State) (c : Bool) : (s.halt c).inFlight = s.inFlight := rfl
@[simp] theorem halt_ioAttached (s : State) (c : Bool) : (s.halt c).ioAttached = s.ioAttached := rfl
@[simp] theorem halt_readAnswers (s : State) (c : Bool) : (s.halt c).readAnswers = s.readAnswers := rfl
@[simp] theorem halt_writeAnswers (s : State) (c : Bool) : (s.halt c).writeAnswers = s.writeAnswers := rfl
@[simp] theorem halt_ioTrace (s : State) (c : Bool) : (s.halt c).ioTrace = s.ioTrace := rfl
@[simp] theorem halt_len (s : State) (c : Bool) : (s.halt c).len = s.len := rfl
@[simp] theorem halt_cell (s : State) (c : Bool) (x : Int) : (s.halt c).cell x = s.cell x := rfl

/-! ### setCell -/

@[simp] theorem setCell_run (s : State) (a : Int) (v : Word) : (s.setCell a v).run = s.run := rfl
@[simp] theorem setCell_ip (s : State) (a : Int) (v : Word) : (s.setCell a v).ip = s.ip := rfl
@[simp] theorem setCell_sp (s : State) (a : Int) (v : Word) : (s.setCell a v).sp = s.sp := rfl
@[simp] theorem setCell_stack (s : State) (a : Int) (v : Word) : (s.setCell a v).stack = s.stack.write a.toNat v := rfl
@[simp] theorem setCell_resetCount (s : State) (a : Int) (v : Word) : (s.setCell a v).resetCount = s.resetCount := rfl
@[simp] theorem setCell_haltCause (s : State) (a : Int) (v : Word) : (s.setCell a v).haltCause = s.haltCause := rfl
@[simp] theorem setCell_faultCode (s : State) (a : Int) (v : Word) : (s.setCell a v).faultCode = s.faultCode := rfl
@[simp] theorem setCell_faultIp (s : State) (a : Int) (v : Word) : (s.setCell a v).faultIp = s.faultIp := rfl
@[simp] theorem setCell_prog (s : State) (a : Int) (v : Word) : (s.setCell a v).prog = s.prog := rfl
@[simp] theorem setCell_labels (s : State) (a : Int) (v : Word) : (s.setCell a v).labels = s.labels := rfl
@[simp] theorem setCell_inFlight (s : State) (a : Int) (v : Word) : (s.setCell a v).inFlight = s.inFlight := rfl
@[simp] theorem setCell_ioAttached (s : State) (a : Int) (v : Word) : (s.setCell a v).ioAttached = s.ioAttached := rfl
@[simp] theorem setCell_readAnswers (s : State) (a : Int) (v : Word) : (s.setCell a v).readAnswers = s.readAnswers := rfl
@[simp] theorem setCell_writeAnswers (s : State) (a : Int) (v : Word) : (s.setCell a v).writeAnswers = s.writeAnswers := rfl
@[simp] theorem setCell_ioTrace (s : State) (a : Int) (v : Word) : (s.setCell a v).ioTrace = s.ioTrace := rfl
@[simp] theorem setCell_len (s : State) (a : Int) (v : Word) : (s.setCell a v).len = s.len := rfl

/-! ### faultEntry -/

@[simp] theorem faultEntry_run (f : FaultCode) (s : State) : (faultEntry f s).run = .faulted := rfl
@[simp] theorem faultEntry_ip (f : FaultCode) (s : State) : (faultEntry f s).ip = s.ip := rfl
@[simp] theorem faultEntry_sp (f : FaultCode) (s : State) : (faultEntry f s).sp = s.sp := rfl
@[simp] theorem faultEntry_stack (f : FaultCode) (s : State) : (faultEntry f s).stack = s.stack := rfl
@[simp] theorem faultEntry_resetCount (f : FaultCode) (s : State) : (faultEntry f s).resetCount = s.resetCount := rfl
@[simp] theorem faultEntry_haltCause (f : FaultCode) (s : State) : (faultEntry f s).haltCause = s.haltCause := rfl
@[simp] theorem faultEntry_faultCode (f : FaultCode) (s : State) : (faultEntry f s).faultCode = f := rfl
@[simp] theorem faultEntry_faultIp (f : FaultCode) (s : State) : (faultEntry f s).faultIp = s.ip - 1 := rfl
@[simp] theorem faultEntry_prog (f : FaultCode) (s : State) : (faultEntry f s).prog = s.prog := rfl
@[simp] theorem faultEntry_labels (f : FaultCode) (s : State) : (faultEntry f s).labels = s.labels := rfl
@[simp] theorem faultEntry_inFlight (f : FaultCode) (s : State) : (faultEntry f s).inFlight = s.inFlight := rfl
@[simp] theorem faultEntry_ioAttached (f : FaultCode) (s : State) : (faultEntry f s).ioAttached = s.ioAttached := rfl
@[simp] theorem faultEntry_readAnswers (f : FaultCode) (s : State) : (faultEntry f s).readAnswers = s.readAnswers := rfl
@[simp] theorem faultEntry_writeAnswers (f : FaultCode) (s : State) : (faultEntry f s).writeAnswers = s.writeAnswers := rfl
@[simp] theorem faultEntry_ioTrace (f : FaultCode) (s : State) : (faultEntry f s).ioTrace = s.ioTrace := rfl
@[simp] theorem faultEntry_len (f : FaultCode) (s : State) : (faultEntry f s).len = s.len := rfl
@[simp] theorem faultEntry_cell (f : FaultCode) (s : State) (x : Int) : (faultEntry f s).cell x = s.cell x := rfl

/-! ### issue -/

@[simp] theorem issue_run (q : IoRequest) (e : IoEvent) (s : State) : (issue q e s).run = s.run := rfl
@[simp] theorem issue_ip (q : IoRequest) (e : IoEvent) (s : State) : (issue q e s).ip = s.ip := rfl
@[simp] theorem issue_sp (q : IoRequest) (e : IoEvent) (s : State) : (issue q e s).sp = s.sp := rfl
@[simp] theorem issue_stack (q : IoRequest) (e : IoEvent) (s : State) : (issue q e s).stack = s.stack := rfl
@[simp] theorem issue_resetCount (q : IoRequest) (e : IoEvent) (s : State) : (issue q e s).resetCount = s.resetCount := rfl
@[simp] theorem issue_haltCause (q : IoRequest) (e : IoEvent) (s : State) : (issue q e s).haltCause = s.haltCause := rfl
@[simp] theorem issue_faultCode (q : IoRequest) (e : IoEvent) (s : State) : (issue q e s).faultCode = s.faultCode := rfl
@[simp] theorem issue_faultIp (q : IoRequest) (e : IoEvent) (s : State) : (issue q e s).faultIp = s.faultIp := rfl
@[simp] theorem issue_prog (q : IoRequest) (e : IoEvent) (s : State) : (issue q e s).prog = s.prog := rfl
@[simp] theorem issue_labels (q : IoRequest) (e : IoEvent) (s : State) : (issue q e s).labels = s.labels := rfl
@[simp] theorem issue_inFlight (q : IoRequest) (e : IoEvent) (s : State) : (issue q e s).inFlight = some q := rfl
@[simp] theorem issue_ioAttached (q : IoRequest) (e : IoEvent) (s : State) : (issue q e s).ioAttached = s.ioAttached := rfl
@[simp] theorem issue_readAnswers (q : IoRequest) (e : IoEvent) (s : State) : (issue q e s).readAnswers = s.readAnswers := rfl
@[simp] theorem issue_writeAnswers (q : IoRequest) (e : IoEvent) (s : State) : (issue q e s).writeAnswers = s.writeAnswers := rfl
@[simp] theorem issue_ioTrace (q : IoRequest) (e : IoEvent) (s : State) : (issue q e s).ioTrace = s.ioTrace ++ [e] := rfl
@[simp] theorem issue_len (q : IoRequest) (e : IoEvent) (s : State) : (issue q e s).len = s.len := rfl
@[simp] theorem issue_cell (q : IoRequest) (e : IoEvent) (s : State) (x : Int) : (issue q e s).cell x = s.cell x := rfl

/-! ### answered -/

@[simp] theorem answered_run (e : IoEvent) (s : State) : (answered e s).run = s.run := rfl
@[simp] theorem answered_ip (e : IoEvent) (s : State) : (answered e s).ip = s.ip := rfl
@[simp] theorem answered_sp (e : IoEvent) (s : State) : (answered e s).sp = s.sp := rfl
@[simp] theorem answered_stack (e : IoEvent) (s : State) : (answered e s).stack = s.stack := rfl
@[simp] theorem answered_resetCount (e : IoEvent) (s : State) : (answered e s).resetCount = s.resetCount := rfl
@[simp] theorem answered_haltCause (e : IoEvent) (s : State) : (answered e s).haltCause = s.haltCause := rfl
@[simp] theorem answered_faultCode (e : IoEvent) (s : State) : (answered e s).faultCode = s.faultCode := rfl
@[simp] theorem answered_faultIp (e : IoEvent) (s : State) : (answered e s).faultIp = s.faultIp := rfl
@[simp] theorem answered_prog (e : IoEvent) (s : State) : (answered e s).prog = s.prog := rfl
@[simp] theorem answered_labels (e : IoEvent) (s : State) : (answered e s).labels = s.labels := rfl
@[simp] theorem answered_inFlight (e : IoEvent) (s : State) : (answered e s).inFlight = none := rfl
@[simp] theorem answered_ioAttached (e : IoEvent) (s : State) : (answered e s).ioAttached = s.ioAttached := rfl
@[simp] theorem answered_readAnswers (e : IoEvent) (s : State) : (answered e s).readAnswers = s.readAnswers := rfl
@[simp] theorem answered_writeAnswers (e : IoEvent) (s : State) : (answered e s).writeAnswers = s.writeAnswers := rfl
@[simp] theorem answered_ioTrace (e : IoEvent) (s : State) : (answered e s).ioTrace = s.ioTrace ++ [e] := rfl
@[simp] theorem answered_len (e : IoEvent) (s : State) : (answered e s).len = s.len := rfl
@[simp] theorem answered_cell (e : IoEvent) (s : State) (x : Int) : (answered e s).cell x = s.cell x := rfl

/-! ### Views and constants -/

@[simp] theorem startSp_eq (s : State) : s.startSp = -1 := rfl
theorem len_def (s : State) : s.len = s.prog.length := rfl

end Sys2Proof.Machine
end

