-- ==== Sys2Proof/Laws/Memory.lean ====
section
/-! SUPPORT. The laws of the stack array's storage: read after write, and the canonical form. -/

namespace Sys2Proof.Machine

@[simp] theorem peek_nil (a : Nat) : Memory.peek [] a = none := rfl

theorem peek_write_same (m : Memory) (a : Nat) (v : Word) : (m.write a v).peek a = some v := by
  induction m with
  | nil => simp [Memory.write, Memory.peek]
  | cons e m ih =>
    obtain ⟨b, w⟩ := e
    simp only [Memory.write]
    split
    · simp [Memory.peek]
    · split
      · simp [Memory.peek]
      · next h => simpa [Memory.peek, h] using ih

theorem peek_write_other (m : Memory) {a b : Nat} (v : Word) (h : b ≠ a) : (m.write a v).peek b = m.peek b := by
  induction m with
  | nil => simp [Memory.write, Memory.peek, h]
  | cons e m ih =>
    obtain ⟨c, w⟩ := e
    simp only [Memory.write]
    split
    · simp [Memory.peek, h]
    · split
      · next hc => subst hc; simp [Memory.peek, h]
      · simp [Memory.peek, ih]

theorem mem_write {m : Memory} {a : Nat} {v : Word} {e : Nat × Word} (h : e ∈ m.write a v) : e = (a, v) ∨ e ∈ m := by
  induction m with
  | nil => simpa [Memory.write] using h
  | cons x m ih =>
    obtain ⟨b, w⟩ := x
    simp only [Memory.write] at h
    split at h
    · simpa using h
    · split at h
      · rcases List.mem_cons.1 h with h | h
        · exact .inl h
        · exact .inr (List.mem_cons_of_mem _ h)
      · rcases List.mem_cons.1 h with h | h
        · exact .inr (h ▸ List.mem_cons_self)
        · exact (ih h).imp_right (List.mem_cons_of_mem _)

theorem write_pairwise {m : Memory} (a : Nat) (v : Word) (h : m.Pairwise (fun e f => e.1 < f.1)) :
    (m.write a v).Pairwise (fun e f => e.1 < f.1) := by
  induction m with
  | nil => simp [Memory.write]
  | cons x m ih =>
    obtain ⟨b, w⟩ := x
    rw [List.pairwise_cons] at h
    simp only [Memory.write]
    split
    · next hab =>
      refine List.pairwise_cons.2 ⟨?_, List.pairwise_cons.2 h⟩
      intro e he
      rcases List.mem_cons.1 he with rfl | he
      · exact hab
      · exact hab.trans (h.1 e he)
    · split
      · next hab => subst hab; exact List.pairwise_cons.2 h
      · next h1 h2 =>
        refine List.pairwise_cons.2 ⟨?_, ih h.2⟩
        intro e he
        rcases mem_write he with rfl | he
        · simp only; omega
        · exact h.1 e he

/-- A write inside the array keeps the canonical form. -/
theorem write_wf {m : Memory} {a : Int} (v : Word) (ha : Config.inArray a) (h : m.wf) : (m.write a.toNat v).wf := by
  refine ⟨write_pairwise _ _ h.1, fun e he => ?_⟩
  rcases mem_write he with rfl | he
  · simpa [Config.inArray, Int.toNat_of_nonneg ha.1] using ha
  · exact h.2 e he

/-- Two memories in canonical form that hold the same written words are equal. -/
theorem wf_ext {m n : Memory} (hm : m.wf) (hn : n.wf) (h : ∀ a, m.peek a = n.peek a) : m = n := by
  have none_of_lt : ∀ (l : Memory) (b : Nat), (∀ e ∈ l, b < e.1) → l.peek b = none := by
    intro l b hl
    induction l with
    | nil => rfl
    | cons x l ih =>
      have := hl x List.mem_cons_self
      rw [Memory.peek, if_neg (by omega)]
      exact ih fun e he => hl e (List.mem_cons_of_mem _ he)
  replace hm := hm.1
  replace hn := hn.1
  induction m generalizing n with
  | nil =>
    cases n with
    | nil => rfl
    | cons y n => simpa [Memory.peek] using h y.1
  | cons x m ih =>
    cases n with
    | nil => simpa [Memory.peek] using h x.1
    | cons y n =>
      rw [List.pairwise_cons] at hm hn
      have hx := h x.1
      have hy := h y.1
      simp only [Memory.peek, if_true] at hx hy
      have hxy : x.1 = y.1 := by
        by_contra hne
        rw [if_neg hne] at hx
        rw [if_neg (Ne.symm hne)] at hy
        rcases Nat.lt_or_gt_of_ne hne with hlt | hlt
        · rw [none_of_lt n x.1 fun e he => hlt.trans (hn.1 e he)] at hx; simp at hx
        · rw [none_of_lt m y.1 fun e he => hlt.trans (hm.1 e he)] at hy; simp at hy
      rw [if_pos hxy] at hx
      have hxe : x = y := Prod.ext hxy (Option.some.inj hx)
      subst hxe
      congr 1
      refine ih (fun a => ?_) hm.2 hn.2
      by_cases ha : a = x.1
      · subst ha
        rw [none_of_lt m _ hm.1, none_of_lt n _ hn.1]
      · simpa [Memory.peek, ha] using h a

theorem cell_setCell_same (s : State) (a : Int) (v : Word) : (s.setCell a v).cell a = v := by
  simp [State.cell, peek_write_same]

theorem cell_setCell_other (s : State) {a b : Int} (v : Word) (ha : 0 ≤ a) (hb : 0 ≤ b) (h : b ≠ a) :
    (s.setCell a v).cell b = s.cell b := by
  have : b.toNat ≠ a.toNat := by omega
  simp [State.cell, peek_write_other _ _ this]

/-- Read after write, at every existing address. -/
theorem cell_setCell (s : State) {a b : Int} (v : Word) (ha : 0 ≤ a) (hb : 0 ≤ b) :
    (s.setCell a v).cell b = if b = a then v else s.cell b := by
  split
  · next h => subst h; exact cell_setCell_same s b v
  · next h => exact cell_setCell_other s v ha hb h

/-- A cell nothing has written holds its INIT_STACK value (20_memory.md R45). -/
theorem cell_unwritten {s : State} {a : Int} (h : s.stack.peek a.toNat = none) :
    s.cell a = Config.initStack s.resetCount a.toNat := by
  simp [State.cell, h]

end Sys2Proof.Machine
end

