-- ==== Sys2Proof/Laws/Ops.lean ====
section
/-! SUPPORT. For each shared operation, what it answers: an equation where its check passes and where it fails, and
one inversion lemma that says once everything it can answer. -/

namespace Sys2Proof.Machine

theorem inArray_iff {a : Int} : Config.inArray a ↔ 0 ≤ a ∧ a ≤ 8191 := by
  simp [Config.inArray, Config.stackCap]

theorem spInRange_iff {x : Int} : (Config.startSp ≤ x ∧ x ≤ Config.stackCap - 1) ↔ -1 ≤ x ∧ x ≤ 8191 := by
  simp [Config.startSp, Config.stackCap]

/-! ### check and raise -/

theorem check_pos {c : Prop} [Decidable c] {f : FaultCode} {s : State} {k : Out} (h : c) : check c f s k = k :=
  if_pos h

theorem check_neg {c : Prop} [Decidable c] {f : FaultCode} {s : State} {k : Out} (h : ¬ c) :
    check c f s k = .next (faultEntry f s) := if_neg h

theorem check_next {c : Prop} [Decidable c] {f : FaultCode} {s t : State} {k : Out} (h : check c f s k = .next t) :
    (c ∧ k = .next t) ∨ (¬ c ∧ t = faultEntry f s) := by
  by_cases hc : c
  · exact .inl ⟨hc, by rwa [check_pos hc] at h⟩
  · rw [check_neg hc] at h
    exact .inr ⟨hc, (Host.Outcome.next.inj h).symm⟩

theorem checkPresent_pos {k : Int} {s : State} {r : Out} (h : k - 1 ≤ s.sp) : checkPresent k s r = r :=
  check_pos (by rw [startSp_eq]; omega)

theorem checkPresent_neg {k : Int} {s : State} {r : Out} (h : s.sp < k - 1) :
    checkPresent k s r = .next (faultEntry .stackUnderflow s) := check_neg (by rw [startSp_eq]; omega)

theorem checkPresent_next {k : Int} {s t : State} {r : Out} (h : checkPresent k s r = .next t) :
    (k - 1 ≤ s.sp ∧ r = .next t) ∨ (s.sp < k - 1 ∧ t = faultEntry .stackUnderflow s) := by
  rcases check_next h with ⟨hc, h⟩ | ⟨hc, h⟩ <;> rw [startSp_eq] at hc
  · exact .inl ⟨by omega, h⟩
  · exact .inr ⟨by omega, h⟩

theorem checkRoom_pos {k : Int} {s : State} {r : Out} (h : s.sp + k ≤ 8191) : checkRoom k s r = r :=
  check_pos (by simp only [Config.stackCap]; omega)

theorem checkRoom_neg {k : Int} {s : State} {r : Out} (h : 8191 < s.sp + k) :
    checkRoom k s r = .next (faultEntry .stackOverflow s) := check_neg (by simp only [Config.stackCap]; omega)

theorem checkRoom_next {k : Int} {s t : State} {r : Out} (h : checkRoom k s r = .next t) :
    (s.sp + k ≤ 8191 ∧ r = .next t) ∨ (8191 < s.sp + k ∧ t = faultEntry .stackOverflow s) := by
  rcases check_next h with ⟨hc, h⟩ | ⟨hc, h⟩ <;> simp only [Config.stackCap] at hc
  · exact .inl ⟨by omega, h⟩
  · exact .inr ⟨by omega, h⟩

theorem checkAddress_pos {a : Int} {s : State} {r : Out} (h : Config.inArray a) : checkAddress a s r = r := check_pos h

theorem checkAddress_neg {a : Int} {s : State} {r : Out} (h : ¬ Config.inArray a) :
    checkAddress a s r = .next (faultEntry .addressOutOfRange s) := check_neg h

theorem checkAddress_next {a : Int} {s t : State} {r : Out} (h : checkAddress a s r = .next t) :
    (Config.inArray a ∧ r = .next t) ∨ (¬ Config.inArray a ∧ t = faultEntry .addressOutOfRange s) := check_next h

/-! ### The memory primitives -/

theorem memRead_in {a : Int} {s : State} {k : Word → Out} (h : Config.inArray a) : memRead a s k = k (s.cell a) :=
  if_pos h

theorem memRead_next {a : Int} {s t : State} {k : Word → Out} (h : memRead a s k = .next t) :
    Config.inArray a ∧ k (s.cell a) = .next t := by
  by_cases ha : Config.inArray a
  · exact ⟨ha, by rwa [memRead_in ha] at h⟩
  · simp [memRead, if_neg ha] at h

theorem memWrite_in {a : Int} {v : Word} {s : State} {k : State → Out} (h : Config.inArray a) :
    memWrite a v s k = k (s.setCell a v) := if_pos h

theorem memWrite_next {a : Int} {v : Word} {s t : State} {k : State → Out} (h : memWrite a v s k = .next t) :
    Config.inArray a ∧ k (s.setCell a v) = .next t := by
  by_cases ha : Config.inArray a
  · exact ⟨ha, by rwa [memWrite_in ha] at h⟩
  · simp [memWrite, if_neg ha] at h

/-! ### push -/

/-- The state after a push (10_state.md R23). -/
def pushed (v : Word) (s : State) : State := (s.setSp (s.sp + 1)).setCell (s.sp + 1) v

theorem push_room {v : Word} {s : State} {k : State → Out} (h : -1 ≤ s.sp) (h' : s.sp + 1 ≤ 8191) :
    push v s k = k (pushed v s) := memWrite_in (inArray_iff.2 ⟨by omega, h'⟩)

theorem push_next {v : Word} {s t : State} {k : State → Out} (h : push v s k = .next t) :
    -1 ≤ s.sp ∧ s.sp + 1 ≤ 8191 ∧ k (pushed v s) = .next t := by
  obtain ⟨ha, h⟩ := memWrite_next h
  rw [inArray_iff] at ha
  exact ⟨by omega, ha.2, h⟩

@[simp] theorem pushed_sp (v : Word) (s : State) : (pushed v s).sp = s.sp + 1 := rfl
@[simp] theorem pushed_ip (v : Word) (s : State) : (pushed v s).ip = s.ip := rfl
@[simp] theorem pushed_run (v : Word) (s : State) : (pushed v s).run = s.run := rfl
@[simp] theorem pushed_prog (v : Word) (s : State) : (pushed v s).prog = s.prog := rfl

theorem pushed_cell_top (v : Word) (s : State) : (pushed v s).cell (s.sp + 1) = v := cell_setCell_same _ _ _

theorem pushed_cell_other (v : Word) {s : State} {a : Int} (hs : -1 ≤ s.sp) (ha : 0 ≤ a) (h : a ≠ s.sp + 1) :
    (pushed v s).cell a = s.cell a := by
  rw [pushed, cell_setCell_other _ _ (by omega) ha h, setSp_cell]

/-! ### The operator shapes -/

/-- The state after a binary operator (42_arithmetic.md R125). -/
def binaryResult (f : Word → Word → Word) (s : State) : State :=
  (s.setCell (s.sp - 1) (f (s.cell (s.sp - 1)) (s.cell s.sp))).setSp (s.sp - 1)

theorem binaryOp_short {f : Word → Word → Word} {s : State} (h : s.sp < 1) :
    binaryOp f s = .next (faultEntry .stackUnderflow s) := checkPresent_neg (by omega)

theorem binaryOp_result {f : Word → Word → Word} {s : State} (h : 1 ≤ s.sp) (h' : s.sp ≤ 8191) :
    binaryOp f s = .next (binaryResult f s) := by
  rw [binaryOp, checkPresent_pos (by omega), memRead_in (inArray_iff.2 (by omega)),
    memRead_in (inArray_iff.2 (by omega)), memWrite_in (inArray_iff.2 (by omega))]
  rfl

theorem binaryOp_next {f : Word → Word → Word} {s t : State} (h : binaryOp f s = .next t) :
    (s.sp < 1 ∧ t = faultEntry .stackUnderflow s) ∨ (1 ≤ s.sp ∧ s.sp ≤ 8191 ∧ t = binaryResult f s) := by
  rcases checkPresent_next h with ⟨hc, h⟩ | ⟨hc, h⟩
  · obtain ⟨-, h⟩ := memRead_next h
    obtain ⟨ha, h⟩ := memRead_next h
    obtain ⟨-, h⟩ := memWrite_next h
    exact .inr ⟨by omega, (inArray_iff.1 ha).2, (Host.Outcome.next.inj h).symm⟩
  · exact .inl ⟨by omega, h⟩

/-- The state after an operator on the top in place (42_arithmetic.md R124). -/
def unaryResult (f : Word → Word) (s : State) : State := s.setCell s.sp (f (s.cell s.sp))

theorem unaryOp_short {f : Word → Word} {s : State} (h : s.sp < 0) :
    unaryOp f s = .next (faultEntry .stackUnderflow s) := checkPresent_neg (by omega)

theorem unaryOp_result {f : Word → Word} {s : State} (h : 0 ≤ s.sp) (h' : s.sp ≤ 8191) :
    unaryOp f s = .next (unaryResult f s) := by
  rw [unaryOp, checkPresent_pos (by omega), memRead_in (inArray_iff.2 ⟨h, h'⟩), memWrite_in (inArray_iff.2 ⟨h, h'⟩)]
  rfl

theorem unaryOp_next {f : Word → Word} {s t : State} (h : unaryOp f s = .next t) :
    (s.sp < 0 ∧ t = faultEntry .stackUnderflow s) ∨ (0 ≤ s.sp ∧ s.sp ≤ 8191 ∧ t = unaryResult f s) := by
  rcases checkPresent_next h with ⟨hc, h⟩ | ⟨hc, h⟩
  · obtain ⟨ha, h⟩ := memRead_next h
    obtain ⟨-, h⟩ := memWrite_next h
    exact .inr ⟨by omega, (inArray_iff.1 ha).2, (Host.Outcome.next.inj h).symm⟩
  · exact .inl ⟨by omega, h⟩

/-! ### The operand check -/

theorem withOperands_ok {k1 k2 : OperandKind} {o1 o2 : Slot} {s : State} {r : Word → Word → Out}
    (h1 : kindFault k1 o1 = false) (h2 : kindFault k2 o2 = false)
    (l1 : labelFault k1 s.len o1 = false) (l2 : labelFault k2 s.len o2 = false) :
    withOperands k1 k2 o1 o2 s r = r o1.val o2.val := by
  simp [withOperands, check, h1, h2, l1, l2]

theorem withOperands_kind {k1 k2 : OperandKind} {o1 o2 : Slot} {s : State} {r : Word → Word → Out}
    (h : kindFault k1 o1 = true ∨ kindFault k2 o2 = true) :
    withOperands k1 k2 o1 o2 s r = .next (faultEntry .operandTypeError s) :=
  check_neg (by rcases h with h | h <;> simp [h])

theorem withOperands_label {k1 k2 : OperandKind} {o1 o2 : Slot} {s : State} {r : Word → Word → Out}
    (h1 : kindFault k1 o1 = false) (h2 : kindFault k2 o2 = false)
    (h : labelFault k1 s.len o1 = true ∨ labelFault k2 s.len o2 = true) :
    withOperands k1 k2 o1 o2 s r = .next (faultEntry .labelNotFound s) := by
  rw [withOperands, check_pos (by simp [h1, h2])]
  exact check_neg (by rcases h with h | h <;> simp [h])

/-- Everything the operand check can answer. -/
theorem withOperands_next {k1 k2 : OperandKind} {o1 o2 : Slot} {s t : State} {r : Word → Word → Out}
    (h : withOperands k1 k2 o1 o2 s r = .next t) :
    t = faultEntry .operandTypeError s ∨ t = faultEntry .labelNotFound s ∨
      (labelFault k1 s.len o1 = false ∧ labelFault k2 s.len o2 = false ∧ r o1.val o2.val = .next t) := by
  rcases check_next h with ⟨-, h⟩ | ⟨-, h⟩
  · rcases check_next h with ⟨hl, h⟩ | ⟨-, h⟩
    · refine .inr (.inr ?_)
      simpa [h] using hl
    · exact .inr (.inl h)
  · exact .inl h

theorem withOperands_none {o1 o2 : Slot} {s : State} {r : Word → Word → Out}
    (h1 : o1.tag = .absent) (h2 : o2.tag = .absent) : withOperands .none .none o1 o2 s r = r o1.val o2.val :=
  withOperands_ok (by simp [kindFault, h1]) (by simp [kindFault, h2]) rfl rfl

theorem withOperands_int {o1 o2 : Slot} {s : State} {r : Word → Word → Out}
    (h1 : o1.tag = .int) (h2 : o2.tag = .absent) : withOperands .int .none o1 o2 s r = r o1.val o2.val :=
  withOperands_ok (by simp [kindFault, h1]) (by simp [kindFault, h2]) rfl rfl

theorem withOperands_ints {o1 o2 : Slot} {s : State} {r : Word → Word → Out}
    (h1 : o1.tag = .int) (h2 : o2.tag = .int) : withOperands .int .int o1 o2 s r = r o1.val o2.val :=
  withOperands_ok (by simp [kindFault, h1]) (by simp [kindFault, h2]) rfl rfl

theorem withOperands_label_ok {o1 o2 : Slot} {s : State} {r : Word → Word → Out}
    (h1 : o1.tag = .label) (hl : o1.val.toNat < s.len) (h2 : o2.tag = .absent) :
    withOperands .label .none o1 o2 s r = r o1.val o2.val :=
  withOperands_ok (by simp [kindFault, h1]) (by simp [kindFault, h2]) (by simp [labelFault, h1, hl]) rfl

theorem labelFault_label {len : Nat} {o : Slot} (h : labelFault .label len o = false) :
    o.tag = .label ∧ o.val.toNat < len := by
  simpa [labelFault] using h

end Sys2Proof.Machine
end

