-- ==== Sys2Proof/Laws/Frame.lean ====
section
/-! SUPPORT. What the loops of ALLOC and DALLOC leave (spec/46_frame.md R160, R161, R163), by induction over the
count. -/

namespace Sys2Proof.Machine

/-- What `t` is after `n` pushes from `src` on: only the stack and `sp` moved, the cells outside the pushed block are
as before, and each pushed cell holds what its source cell held when it was read. -/
structure AllocDone (src : Int) (n : Nat) (s t : State) : Prop where
  only : t = { s with stack := t.stack, sp := t.sp }
  sp : t.sp = s.sp + n
  wf : s.stack.wf → t.stack.wf
  outside : ∀ a, 0 ≤ a → (a ≤ s.sp ∨ s.sp + n < a) → t.cell a = s.cell a
  block : ∀ k : Nat, k < n → t.cell (s.sp + 1 + k) =
    if s.sp < src + k ∧ src + k ≤ s.sp + k then t.cell (src + k) else s.cell (src + k)

theorem allocLoop_done (n : Nat) : ∀ (src : Int) (s : State), -1 ≤ s.sp → s.sp + n ≤ 8191 → 0 ≤ src → src + n ≤ 8192 →
    ∃ t, allocLoop n src s = .next t ∧ AllocDone src n s t := by
  induction n with
  | zero =>
    intro src s h1 h2 h3 h4
    exact ⟨s, rfl, rfl, by simp, id, fun a _ _ => rfl, fun k hk => absurd hk (by omega)⟩
  | succ n ih =>
    intro src s h1 h2 h3 h4
    push_cast at h2 h4
    obtain ⟨t, ht, d⟩ := ih (src + 1) (pushed (s.cell src) s) (by simp; omega) (by simp; omega) (by omega) (by omega)
    refine ⟨t, ?_, ?_⟩
    · rw [allocLoop, memRead_in (inArray_iff.2 (by omega)), push_room h1 (by omega), ht]
    · have htop : t.cell (s.sp + 1) = s.cell src := by
        rw [d.outside _ (by omega) (.inl (by simp)), pushed_cell_top]
      refine ⟨?_, ?_, ?_, ?_, ?_⟩
      · rw [d.only]; rfl
      · rw [d.sp]; simp; omega
      · exact fun h => d.wf (write_wf _ (inArray_iff.2 (by omega)) h)
      · intro a ha h
        rw [d.outside a ha (by simp; omega), pushed_cell_other _ h1 ha (by omega)]
      · intro k hk
        cases k with
        | zero =>
          rw [if_neg (by simp), Nat.cast_zero, add_zero, add_zero, htop]
        | succ k =>
          have hb := d.block k (by omega)
          rw [pushed_sp] at hb
          rw [show s.sp + 1 + ((k + 1 : Nat) : Int) = s.sp + 1 + 1 + k by push_cast; ring,
            show src + ((k + 1 : Nat) : Int) = src + 1 + k by push_cast; ring, hb]
          by_cases hc : s.sp + 1 < src + 1 + k ∧ src + 1 + k ≤ s.sp + 1 + k
          · rw [if_pos hc, if_pos (by push_cast; omega)]
          · rw [if_neg hc]
            by_cases he : src + 1 + (k : Int) = s.sp + 1
            · rw [if_pos (by push_cast; omega), he, htop, pushed_cell_top]
            · rw [if_neg (by push_cast; omega), pushed_cell_other _ h1 (by omega) he]

/-- A loop of ALLOC that answers a next state moved nothing, or stayed inside the array. -/
theorem allocLoop_bounds (n : Nat) : ∀ (src : Int) (s t : State), allocLoop n src s = .next t →
    n = 0 ∨ (-1 ≤ s.sp ∧ s.sp + n ≤ 8191 ∧ 0 ≤ src ∧ src + n ≤ 8192) := by
  induction n with
  | zero => exact fun _ _ _ _ => .inl rfl
  | succ n ih =>
    intro src s t h
    obtain ⟨ha, h⟩ := memRead_next h
    obtain ⟨hs, hs', h⟩ := push_next h
    rw [inArray_iff] at ha
    rcases ih _ _ _ h with h0 | h0
    · subst h0
      exact .inr ⟨hs, by simpa using hs', ha.1, by simp; omega⟩
    · rw [pushed_sp] at h0
      exact .inr ⟨hs, by push_cast; omega, ha.1, by push_cast; omega⟩

/-- Everything the loop of ALLOC can leave. -/
theorem allocLoop_next {n : Nat} {src : Int} {s t : State} (h : allocLoop n src s = .next t) :
    t = s ∨ AllocDone src n s t := by
  rcases allocLoop_bounds n src s t h with h0 | ⟨h1, h2, h3, h4⟩
  · subst h0
    exact .inl (Host.Outcome.next.inj h).symm
  · obtain ⟨u, hu, d⟩ := allocLoop_done n src s h1 h2 h3 h4
    rw [hu] at h
    exact .inr (Host.Outcome.next.inj h ▸ d)

/-- What `t` is after `n` pops into the range from `m` on: only the stack and `sp` moved, the cells outside the range
are as before, and each cell of the range holds what its source cell held when it was popped. -/
structure DallocDone (m : Int) (n : Nat) (s t : State) : Prop where
  only : t = { s with stack := t.stack, sp := t.sp }
  sp : t.sp = s.sp - n
  wf : s.stack.wf → t.stack.wf
  outside : ∀ a, 0 ≤ a → (a < m ∨ m + n ≤ a) → t.cell a = s.cell a
  range : ∀ k : Nat, k < n → t.cell (m + k) =
    if m + k < s.sp - n + 1 + k ∧ s.sp - n + 1 + k ≤ m + n - 1 then t.cell (s.sp - n + 1 + k)
    else s.cell (s.sp - n + 1 + k)

theorem dallocLoop_done (n : Nat) : ∀ (m : Int) (s : State), (n : Int) - 1 ≤ s.sp → s.sp ≤ 8191 → 0 ≤ m → m + n ≤ 8192 →
    ∃ t, dallocLoop n m s = .next t ∧ DallocDone m n s t := by
  induction n with
  | zero =>
    intro m s h1 h2 h3 h4
    exact ⟨s, rfl, rfl, by simp, id, fun a _ _ => rfl, fun k hk => absurd hk (by omega)⟩
  | succ n ih =>
    intro m s h1 h2 h3 h4
    push_cast at h1 h4
    obtain ⟨t, ht, d⟩ := ih m ((s.setCell (m + n) (s.cell s.sp)).setSp (s.sp - 1)) (by simp; omega) (by simp; omega) h3
      (by omega)
    have hcell : ∀ a, 0 ≤ a → a ≠ m + n → ((s.setCell (m + n) (s.cell s.sp)).setSp (s.sp - 1)).cell a = s.cell a :=
      fun a ha h => by rw [setSp_cell, cell_setCell_other _ _ (by omega) ha h]
    have htop : t.cell (m + n) = s.cell s.sp := by
      rw [d.outside _ (by omega) (.inr le_rfl), setSp_cell, cell_setCell_same]
    refine ⟨t, ?_, ?_, ?_, ?_, ?_, ?_⟩
    · rw [dallocLoop, memRead_in (inArray_iff.2 (by omega)), memWrite_in (inArray_iff.2 (by omega)), ht]
    · rw [d.only]; rfl
    · rw [d.sp]; simp; omega
    · exact fun h => d.wf (write_wf _ (inArray_iff.2 (by omega)) h)
    · intro a ha h
      push_cast at h
      rw [d.outside a ha (by omega), hcell a ha (by omega)]
    · intro k hk
      by_cases hkn : k = n
      · subst hkn
        rw [htop, if_neg (by push_cast; omega)]
        congr 1
        push_cast
        omega
      · have hr := d.range k (by omega)
        rw [setSp_sp] at hr
        rw [show s.sp - ((n + 1 : Nat) : Int) + 1 + k = s.sp - 1 - n + 1 + k by push_cast; ring, hr]
        push_cast
        by_cases hc : m + k < s.sp - 1 - n + 1 + k ∧ s.sp - 1 - n + 1 + k ≤ m + n - 1
        · rw [if_pos hc, if_pos (by omega)]
        · rw [if_neg hc]
          by_cases he : s.sp - 1 - (n : Int) + 1 + k = m + n
          · rw [if_pos (by omega), he, htop, setSp_cell, cell_setCell_same]
          · rw [if_neg (by omega), hcell _ (by omega) he]

/-- A loop of DALLOC that answers a next state moved nothing, or stayed inside the array. -/
theorem dallocLoop_bounds (n : Nat) : ∀ (m : Int) (s t : State), dallocLoop n m s = .next t →
    n = 0 ∨ ((n : Int) - 1 ≤ s.sp ∧ s.sp ≤ 8191 ∧ 0 ≤ m ∧ m + n ≤ 8192) := by
  induction n with
  | zero => exact fun _ _ _ _ => .inl rfl
  | succ n ih =>
    intro m s t h
    obtain ⟨ha, h⟩ := memRead_next h
    obtain ⟨hb, h⟩ := memWrite_next h
    rw [inArray_iff] at ha hb
    rcases ih _ _ _ h with h0 | h0
    · subst h0
      exact .inr ⟨by simp; omega, ha.2, by simpa using hb.1, by simp at hb ⊢; omega⟩
    · simp only [setSp_sp] at h0
      exact .inr ⟨by push_cast; omega, ha.2, h0.2.2.1, by push_cast; omega⟩

/-- Everything the loop of DALLOC can leave. -/
theorem dallocLoop_next {n : Nat} {m : Int} {s t : State} (h : dallocLoop n m s = .next t) :
    t = s ∨ DallocDone m n s t := by
  rcases dallocLoop_bounds n m s t h with h0 | ⟨h1, h2, h3, h4⟩
  · subst h0
    exact .inl (Host.Outcome.next.inj h).symm
  · obtain ⟨u, hu, d⟩ := dallocLoop_done n m s h1 h2 h3 h4
    rw [hu] at h
    exact .inr (Host.Outcome.next.inj h ▸ d)

/-! ### The range check -/

/-- The range that ALLOC and DALLOC accept (R160, R161). -/
abbrev RangeOk (m n : Int) : Prop := 0 ≤ n ∧ (n = 0 ∨ (0 ≤ m ∧ m + n - 1 ≤ 8191))

theorem checkRange_pos {m n : Int} {s : State} {r : Out} (h : RangeOk m n) : checkRange m n s r = r := by
  rw [checkRange, check_pos h.1, check_pos (by simpa [Config.stackCap] using h.2)]

theorem checkRange_neg {m n : Int} {s : State} {r : Out} (h : ¬ RangeOk m n) :
    checkRange m n s r = .next (faultEntry .addressOutOfRange s) := by
  by_cases hn : 0 ≤ n
  · rw [checkRange, check_pos hn, check_neg]
    intro h2
    exact h ⟨hn, by simpa [Config.stackCap] using h2⟩
  · rw [checkRange, check_neg hn]

theorem checkRange_next {m n : Int} {s t : State} {r : Out} (h : checkRange m n s r = .next t) :
    (RangeOk m n ∧ r = .next t) ∨ (¬ RangeOk m n ∧ t = faultEntry .addressOutOfRange s) := by
  by_cases hr : RangeOk m n
  · exact .inl ⟨hr, by rwa [checkRange_pos hr] at h⟩
  · rw [checkRange_neg hr] at h
    exact .inr ⟨hr, (Host.Outcome.next.inj h).symm⟩

end Sys2Proof.Machine
end

