-- ==== Sys2Proof/Laws/Step.lean ====
section
/-! SUPPORT. What a step, the cycle and the I/O channel can answer, said once each (spec/40_dispatch.md R91, R92, R96,
spec/47_io.md). -/

namespace Sys2Proof.Machine

/-! ### The I/O channel -/

theorem completeRead_next {r : ReadAnswer} {s t : State} (h : completeRead r s = .next t) :
    (r = .error ∧ t = faultEntry .ioChannelError (answered (.rdResp .error) s)) ∨
    (∃ v, r = .value v ∧ -1 ≤ s.sp ∧ s.sp + 1 ≤ 8191 ∧ t = pushed v (answered (.rdResp (.value v)) s)) := by
  cases r with
  | error => exact .inl ⟨rfl, (Host.Outcome.next.inj h).symm⟩
  | value v =>
    obtain ⟨h1, h2, h⟩ := push_next h
    exact .inr ⟨v, rfl, h1, h2, (Host.Outcome.next.inj h).symm⟩

theorem completeRead_value {v : Word} {s : State} (h : -1 ≤ s.sp) (h' : s.sp + 1 ≤ 8191) :
    completeRead (.value v) s = .next (pushed v (answered (.rdResp (.value v)) s)) := push_room h h'

theorem resumeRead_next {s t : State} (h : resumeRead s = .next t) :
    (s.readAnswers = [] ∧ t = s) ∨
    (∃ r rest, s.readAnswers = r :: rest ∧ completeRead r { s with readAnswers := rest } = .next t) := by
  unfold resumeRead at h
  split at h
  · next h0 => exact .inl ⟨h0, (Host.Outcome.next.inj h).symm⟩
  · next r rest h0 => exact .inr ⟨r, rest, h0, h⟩

theorem resumeWrite_next {s t : State} (h : resumeWrite s = .next t) :
    (s.writeAnswers = [] ∧ t = s) ∨
    (∃ r rest, s.writeAnswers = r :: rest ∧ completeWrite r { s with writeAnswers := rest } = .next t) := by
  unfold resumeWrite at h
  split at h
  · next h0 => exact .inl ⟨h0, (Host.Outcome.next.inj h).symm⟩
  · next r rest h0 => exact .inr ⟨r, rest, h0, h⟩

theorem completeWrite_next {r : WriteAnswer} {s t : State} (h : completeWrite r s = .next t) :
    (r = .error ∧ t = faultEntry .ioChannelError (answered (.wrResp .error) s)) ∨
    (r = .ok ∧ t = (answered (.wrResp .ok) s).setSp (s.sp - 1)) := by
  cases r with
  | error => exact .inl ⟨rfl, (Host.Outcome.next.inj h).symm⟩
  | ok => exact .inr ⟨rfl, (Host.Outcome.next.inj h).symm⟩

/-! ### The step -/

theorem step_not_running {s : State} (h : s.run ≠ .running) : step s = .next s := by
  unfold step stepWith
  cases hr : s.run <;> first | rfl | exact absurd hr h

theorem step_inFlight {s : State} {q : IoRequest} (h : s.run = .running) (hq : s.inFlight = some q) :
    step s = resumeIo q s := by
  simp [step, stepWith, h, hq]

theorem step_cycle {s : State} (h : s.run = .running) (hq : s.inFlight = none) : step s = cycle exec s := by
  simp [step, stepWith, h, hq]

theorem cycle_end {m : Instr → State → Out} {s : State} (h : s.ip = s.len) : cycle m s = .next (s.halt true) :=
  if_pos h

/-- A cycle below the end of the image, by what stands at `ip`. -/
theorem cycle_at {m : Instr → State → Out} {s : State} {w : Diw} (hw : s.prog[s.ip]? = some w) :
    cycle m s = match decode w with
      | none => .next (faultEntry .unknownOperation s.advance)
      | some i => m i s.advance := by
  have hlt := (List.getElem?_eq_some_iff.1 hw).1
  simp only [cycle, len_def, hw, if_neg (Nat.ne_of_lt hlt)]
  rfl

/-- Everything a step can answer. -/
theorem step_cases {s t : State} (h : step s = .next t) :
    (s.run ≠ .running ∧ t = s) ∨
    (∃ q, s.run = .running ∧ s.inFlight = some q ∧ resumeIo q s = .next t) ∨
    (s.run = .running ∧ s.inFlight = none ∧ s.ip = s.len ∧ t = s.halt true) ∨
    (∃ w, s.run = .running ∧ s.inFlight = none ∧ s.prog[s.ip]? = some w ∧ decode w = none ∧
      t = faultEntry .unknownOperation s.advance) ∨
    (∃ w i, s.run = .running ∧ s.inFlight = none ∧ s.prog[s.ip]? = some w ∧ decode w = some i ∧
      exec i s.advance = .next t) := by
  by_cases hr : s.run = .running
  · refine .inr ?_
    cases hq : s.inFlight with
    | some q => exact .inl ⟨q, hr, rfl, by rwa [step_inFlight hr hq] at h⟩
    | none =>
      rw [step_cycle hr hq] at h
      by_cases he : s.ip = s.len
      · rw [cycle_end he] at h
        exact .inr (.inl ⟨hr, rfl, he, (Host.Outcome.next.inj h).symm⟩)
      · cases hw : s.prog[s.ip]? with
        | none => simp [cycle, he, hw] at h
        | some w =>
          rw [cycle_at hw] at h
          cases hd : decode w with
          | none =>
            rw [hd] at h
            exact .inr (.inr (.inl ⟨w, hr, rfl, rfl, hd, (Host.Outcome.next.inj h).symm⟩))
          | some i =>
            rw [hd] at h
            exact .inr (.inr (.inr ⟨w, i, hr, rfl, rfl, hd, h⟩))
  · rw [step_not_running hr] at h
    exact .inl ⟨hr, (Host.Outcome.next.inj h).symm⟩

end Sys2Proof.Machine
end

