-- ==== Sys2Proof/Laws/Exec.lean ====
section
/-! SUPPORT. Everything the meaning of an instruction can answer, said once: a fault, a move of the stack, `sp` and `ip`,
the end of the run, or a transaction of RD or PRN. -/

namespace Sys2Proof.Machine

/-- The five ways a meaning can answer a next state. -/
inductive Effect (i : Instr) (s t : State) : Prop where
  /-- Fault entry (60_exceptions.md R202), with nothing before it. -/
  | fault (f : FaultCode) (code : f ≠ .noFault) (eq : t = faultEntry f s)
  /-- Only the stack array, `sp` and `ip` move, inside their ranges. -/
  | plain (only : t = { s with stack := t.stack, sp := t.sp, ip := t.ip })
      (sp : s.SpInRange → t.SpInRange) (wf : s.stack.wf → t.stack.wf) (ip : t.ip = s.ip ∨ t.ip ≤ s.len)
  /-- HLT. -/
  | halt (o1 o2 : Slot) (instr : i = .hlt o1 o2) (eq : t = s.halt false)
  /-- RD after its checks. -/
  | read (o1 o2 : Slot) (instr : i = .rd o1 o2) (room : s.sp + 1 ≤ 8191) (attached : s.ioAttached = true)
      (eq : resumeRead (issue .rdReq .rdReq s) = .next t)
  /-- PRN after its checks. -/
  | write (o1 o2 : Slot) (instr : i = .prn o1 o2) (present : 0 ≤ s.sp) (attached : s.ioAttached = true)
      (eq : resumeWrite (issue (.wrReq (s.cell s.sp)) (.wrReq (s.cell s.sp)) s) = .next t)

/-- Nothing at all happens: a case of `plain`. -/
theorem Effect.same (i : Instr) (s : State) : Effect i s s := .plain rfl id id (.inl rfl)

/-- A push and then a new `ip` is a case of `plain`. -/
theorem Effect.of_pushed {i : Instr} {s t : State} {v : Word} (h1 : -1 ≤ s.sp) (h2 : s.sp + 1 ≤ 8191)
    (only : t = { pushed v s with ip := t.ip }) (ip : t.ip = s.ip ∨ t.ip ≤ s.len) : Effect i s t := by
  refine .plain ?_ (fun _ => spInRange_iff.2 ?_) (fun h => ?_) ip
  · rw [only]; rfl
  · rw [only]; simp only [pushed_sp]; omega
  · rw [only]; exact write_wf v (inArray_iff.2 (by omega)) h

/-- What the operand check lets through, and its two faults. -/
theorem Effect.of_withOperands {i : Instr} {s t : State} {k1 k2 : OperandKind} {o1 o2 : Slot} {r : Word → Word → Out}
    (h : withOperands k1 k2 o1 o2 s r = .next t)
    (ok : labelFault k1 s.len o1 = false → labelFault k2 s.len o2 = false → r o1.val o2.val = .next t → Effect i s t) :
    Effect i s t := by
  rcases withOperands_next h with h | h | ⟨l1, l2, h⟩
  · exact .fault _ (by simp) h
  · exact .fault _ (by simp) h
  · exact ok l1 l2 h

theorem Effect.of_binaryOp {i : Instr} {s t : State} {f : Word → Word → Word} (h : binaryOp f s = .next t) :
    Effect i s t := by
  rcases binaryOp_next h with ⟨-, rfl⟩ | ⟨h1, h2, rfl⟩
  · exact .fault _ (by simp) rfl
  · exact .plain rfl (fun _ => spInRange_iff.2 (by simp [binaryResult]; omega))
      (fun h => write_wf _ (inArray_iff.2 (by omega)) h) (.inl rfl)

theorem Effect.of_unaryOp {i : Instr} {s t : State} {f : Word → Word} (h : unaryOp f s = .next t) : Effect i s t := by
  rcases unaryOp_next h with ⟨-, rfl⟩ | ⟨h1, h2, rfl⟩
  · exact .fault _ (by simp) rfl
  · exact .plain rfl id (fun h => write_wf _ (inArray_iff.2 (by omega)) h) (.inl rfl)

theorem execAdd_effect {o1 o2 : Slot} {s t : State} (h : execAdd o1 o2 s = .next t) : Effect (.add o1 o2) s t :=
  .of_withOperands h fun _ _ h => .of_binaryOp h

theorem execSub_effect {o1 o2 : Slot} {s t : State} (h : execSub o1 o2 s = .next t) : Effect (.sub o1 o2) s t :=
  .of_withOperands h fun _ _ h => .of_binaryOp h

theorem execMult_effect {o1 o2 : Slot} {s t : State} (h : execMult o1 o2 s = .next t) : Effect (.mult o1 o2) s t :=
  .of_withOperands h fun _ _ h => .of_binaryOp h

theorem execAnd_effect {o1 o2 : Slot} {s t : State} (h : execAnd o1 o2 s = .next t) : Effect (.and o1 o2) s t :=
  .of_withOperands h fun _ _ h => .of_binaryOp h

theorem execOr_effect {o1 o2 : Slot} {s t : State} (h : execOr o1 o2 s = .next t) : Effect (.or o1 o2) s t :=
  .of_withOperands h fun _ _ h => .of_binaryOp h

theorem execCme_effect {o1 o2 : Slot} {s t : State} (h : execCme o1 o2 s = .next t) : Effect (.cme o1 o2) s t :=
  .of_withOperands h fun _ _ h => .of_binaryOp h

theorem execCma_effect {o1 o2 : Slot} {s t : State} (h : execCma o1 o2 s = .next t) : Effect (.cma o1 o2) s t :=
  .of_withOperands h fun _ _ h => .of_binaryOp h

theorem execCeq_effect {o1 o2 : Slot} {s t : State} (h : execCeq o1 o2 s = .next t) : Effect (.ceq o1 o2) s t :=
  .of_withOperands h fun _ _ h => .of_binaryOp h

theorem execCdif_effect {o1 o2 : Slot} {s t : State} (h : execCdif o1 o2 s = .next t) : Effect (.cdif o1 o2) s t :=
  .of_withOperands h fun _ _ h => .of_binaryOp h

theorem execCmeq_effect {o1 o2 : Slot} {s t : State} (h : execCmeq o1 o2 s = .next t) : Effect (.cmeq o1 o2) s t :=
  .of_withOperands h fun _ _ h => .of_binaryOp h

theorem execCmaq_effect {o1 o2 : Slot} {s t : State} (h : execCmaq o1 o2 s = .next t) : Effect (.cmaq o1 o2) s t :=
  .of_withOperands h fun _ _ h => .of_binaryOp h

theorem execInv_effect {o1 o2 : Slot} {s t : State} (h : execInv o1 o2 s = .next t) : Effect (.inv o1 o2) s t :=
  .of_withOperands h fun _ _ h => .of_unaryOp h

theorem execNeg_effect {o1 o2 : Slot} {s t : State} (h : execNeg o1 o2 s = .next t) : Effect (.neg o1 o2) s t :=
  .of_withOperands h fun _ _ h => .of_unaryOp h

theorem execLdc_effect {o1 o2 : Slot} {s t : State} (h : execLdc o1 o2 s = .next t) : Effect (.ldc o1 o2) s t := by
  refine .of_withOperands h fun _ _ h => ?_
  rcases checkRoom_next h with ⟨-, h⟩ | ⟨-, h⟩
  · obtain ⟨h1, h2, h⟩ := push_next h
    cases h
    exact .of_pushed h1 h2 rfl (.inl rfl)
  · exact .fault _ (by simp) h

theorem execLdv_effect {o1 o2 : Slot} {s t : State} (h : execLdv o1 o2 s = .next t) : Effect (.ldv o1 o2) s t := by
  refine .of_withOperands h fun _ _ h => ?_
  rcases checkAddress_next h with ⟨-, h⟩ | ⟨-, h⟩
  · rcases checkRoom_next h with ⟨-, h⟩ | ⟨-, h⟩
    · obtain ⟨-, h⟩ := memRead_next h
      obtain ⟨h1, h2, h⟩ := push_next h
      cases h
      exact .of_pushed h1 h2 rfl (.inl rfl)
    · exact .fault _ (by simp) h
  · exact .fault _ (by simp) h

theorem execStr_effect {o1 o2 : Slot} {s t : State} (h : execStr o1 o2 s = .next t) : Effect (.str o1 o2) s t := by
  refine .of_withOperands h fun _ _ h => ?_
  rcases checkAddress_next h with ⟨ha, h⟩ | ⟨-, h⟩
  · rcases checkPresent_next h with ⟨hp, h⟩ | ⟨-, h⟩
    · obtain ⟨hb, h⟩ := memRead_next h
      obtain ⟨-, h⟩ := memWrite_next h
      cases h
      rw [inArray_iff] at hb
      exact .plain rfl (fun _ => spInRange_iff.2 (by simp; omega)) (fun h => write_wf _ ha h) (.inl rfl)
    · exact .fault _ (by simp) h
  · exact .fault _ (by simp) h

theorem execDivi_effect {o1 o2 : Slot} {s t : State} (h : execDivi o1 o2 s = .next t) : Effect (.divi o1 o2) s t := by
  refine .of_withOperands h fun _ _ h => ?_
  rcases checkPresent_next h with ⟨hp, h⟩ | ⟨-, h⟩
  · obtain ⟨-, h⟩ := memRead_next h
    obtain ⟨hb, h⟩ := memRead_next h
    rcases check_next h with ⟨-, h⟩ | ⟨-, h⟩
    · obtain ⟨hc, h⟩ := memWrite_next h
      cases h
      rw [inArray_iff] at hb
      exact .plain rfl (fun _ => spInRange_iff.2 (by simp; omega)) (fun h => write_wf _ hc h) (.inl rfl)
    · exact .fault _ (by simp) h
  · exact .fault _ (by simp) h

theorem execJmp_effect {o1 o2 : Slot} {s t : State} (h : execJmp o1 o2 s = .next t) : Effect (.jmp o1 o2) s t := by
  refine .of_withOperands h fun hl _ h => ?_
  cases h
  exact .plain rfl id id (.inr (labelFault_label hl).2.le)

theorem execJmpf_effect {o1 o2 : Slot} {s t : State} (h : execJmpf o1 o2 s = .next t) : Effect (.jmpf o1 o2) s t := by
  refine .of_withOperands h fun hl _ h => ?_
  rcases checkPresent_next h with ⟨hp, h⟩ | ⟨-, h⟩
  · obtain ⟨ha, h⟩ := memRead_next h
    cases h
    rw [inArray_iff] at ha
    split
    · exact .plain rfl (fun _ => spInRange_iff.2 (by simp; omega)) id (.inr (labelFault_label hl).2.le)
    · exact .plain rfl (fun _ => spInRange_iff.2 (by simp; omega)) id (.inl rfl)
  · exact .fault _ (by simp) h

theorem execCall_effect {o1 o2 : Slot} {s t : State} (h : execCall o1 o2 s = .next t) : Effect (.call o1 o2) s t := by
  refine .of_withOperands h fun hl _ h => ?_
  rcases checkRoom_next h with ⟨-, h⟩ | ⟨-, h⟩
  · obtain ⟨h1, h2, h⟩ := push_next h
    cases h
    exact .of_pushed h1 h2 rfl (.inr (labelFault_label hl).2.le)
  · exact .fault _ (by simp) h

theorem execRet_effect {o1 o2 : Slot} {s t : State} (h : execRet o1 o2 s = .next t) : Effect (.ret o1 o2) s t := by
  refine .of_withOperands h fun _ _ h => ?_
  rcases checkPresent_next h with ⟨hp, h⟩ | ⟨-, h⟩
  · obtain ⟨ha, h⟩ := memRead_next h
    rcases check_next h with ⟨hr, h⟩ | ⟨-, h⟩
    · cases h
      rw [inArray_iff] at ha
      exact .plain rfl (fun _ => spInRange_iff.2 (by simp; omega)) id (.inr (by simp; omega))
    · exact .fault _ (by simp) h
  · exact .fault _ (by simp) h

theorem execAlloc_effect {o1 o2 : Slot} {s t : State} (h : execAlloc o1 o2 s = .next t) : Effect (.alloc o1 o2) s t := by
  refine .of_withOperands h fun _ _ h => ?_
  rcases checkRange_next h with ⟨hr, h⟩ | ⟨-, h⟩
  · rcases checkRoom_next h with ⟨hp, h⟩ | ⟨-, h⟩
    · rcases allocLoop_next h with rfl | d
      · exact .same _ _
      · refine .plain ?_ (fun hs => spInRange_iff.2 ?_) d.wf (.inl ?_)
        · rw [d.only]
        · have := spInRange_iff.1 hs
          rw [d.sp]; omega
        · rw [d.only]
    · exact .fault _ (by simp) h
  · exact .fault _ (by simp) h

theorem execDalloc_effect {o1 o2 : Slot} {s t : State} (h : execDalloc o1 o2 s = .next t) : Effect (.dalloc o1 o2) s t := by
  refine .of_withOperands h fun _ _ h => ?_
  rcases checkRange_next h with ⟨hr, h⟩ | ⟨-, h⟩
  · rcases checkPresent_next h with ⟨hp, h⟩ | ⟨-, h⟩
    · rcases dallocLoop_next h with rfl | d
      · exact .same _ _
      · refine .plain ?_ (fun hs => spInRange_iff.2 ?_) d.wf (.inl ?_)
        · rw [d.only]
        · have := spInRange_iff.1 hs
          rw [d.sp]; omega
        · rw [d.only]
    · exact .fault _ (by simp) h
  · exact .fault _ (by simp) h

theorem execRd_effect {o1 o2 : Slot} {s t : State} (h : execRd o1 o2 s = .next t) : Effect (.rd o1 o2) s t := by
  refine .of_withOperands h fun _ _ h => ?_
  rcases checkRoom_next h with ⟨hp, h⟩ | ⟨-, h⟩
  · rcases check_next h with ⟨ha, h⟩ | ⟨-, h⟩
    · exact .read o1 o2 rfl hp ha h
    · exact .fault _ (by simp) h
  · exact .fault _ (by simp) h

theorem execPrn_effect {o1 o2 : Slot} {s t : State} (h : execPrn o1 o2 s = .next t) : Effect (.prn o1 o2) s t := by
  refine .of_withOperands h fun _ _ h => ?_
  rcases checkPresent_next h with ⟨hp, h⟩ | ⟨-, h⟩
  · rcases check_next h with ⟨ha, h⟩ | ⟨-, h⟩
    · exact .write o1 o2 rfl (by omega) ha (memRead_next h).2
    · exact .fault _ (by simp) h
  · exact .fault _ (by simp) h

/-- Everything an instruction can answer. -/
theorem exec_effect {i : Instr} {s t : State} (h : exec i s = .next t) : Effect i s t := by
  cases i with
  | start o1 o2 => cases h; exact .same _ _
  | labelMarker o1 o2 => cases h; exact .same _ _
  | hlt o1 o2 => cases h; exact .halt o1 o2 rfl rfl
  | ldc o1 o2 => exact execLdc_effect h
  | ldv o1 o2 => exact execLdv_effect h
  | str o1 o2 => exact execStr_effect h
  | add o1 o2 => exact execAdd_effect h
  | sub o1 o2 => exact execSub_effect h
  | mult o1 o2 => exact execMult_effect h
  | divi o1 o2 => exact execDivi_effect h
  | inv o1 o2 => exact execInv_effect h
  | and o1 o2 => exact execAnd_effect h
  | or o1 o2 => exact execOr_effect h
  | neg o1 o2 => exact execNeg_effect h
  | cme o1 o2 => exact execCme_effect h
  | cma o1 o2 => exact execCma_effect h
  | ceq o1 o2 => exact execCeq_effect h
  | cdif o1 o2 => exact execCdif_effect h
  | cmeq o1 o2 => exact execCmeq_effect h
  | cmaq o1 o2 => exact execCmaq_effect h
  | jmp o1 o2 => exact execJmp_effect h
  | jmpf o1 o2 => exact execJmpf_effect h
  | call o1 o2 => exact execCall_effect h
  | ret o1 o2 => exact execRet_effect h
  | alloc o1 o2 => exact execAlloc_effect h
  | dalloc o1 o2 => exact execDalloc_effect h
  | rd o1 o2 => exact execRd_effect h
  | prn o1 o2 => exact execPrn_effect h

end Sys2Proof.Machine
end

