-- ==== Sys2Proof/Laws/HostPort.lean ====
section
/-! SUPPORT. What a host action can answer, said once (spec/60_exceptions.md R220, spec/70_reset_and_hazards.md R230). -/

namespace Sys2Proof.Machine

@[simp] theorem hostReset_resetCount (s : State) : (hostReset s).resetCount = s.resetCount + 1 := rfl

/-- The two ends of a load. -/
theorem load_cases (progMax : Nat) (recs : Option (List Record)) (attached : Bool) (s : State) :
    load progMax recs attached s = loadFault s ∨
    ∃ rs, recs = some rs ∧ loadable progMax rs = true ∧ load progMax recs attached s = startRun rs attached s := by
  cases recs with
  | none => exact .inl rfl
  | some rs =>
    by_cases h : loadable progMax rs = true
    · exact .inr ⟨rs, rfl, h, if_pos h⟩
    · exact .inl (if_neg h)

@[simp] theorem load_resetCount (progMax : Nat) (recs : Option (List Record)) (attached : Bool) (s : State) :
    (load progMax recs attached s).resetCount = s.resetCount := by
  rcases load_cases progMax recs attached s with h | ⟨rs, -, -, h⟩ <;> rw [h] <;> rfl

theorem hostReadResponse_other_run {run : Nat} {r : ReadAnswer} {s : State} (h : run ≠ s.resetCount) :
    hostReadResponse run r s = .next s := if_neg fun e => h e.1

theorem hostReadResponse_not_waiting {run : Nat} {r : ReadAnswer} {s : State} (h : s.inFlight ≠ some .rdReq) :
    hostReadResponse run r s = .next s := if_neg fun e => h e.2

theorem hostReadResponse_waiting {r : ReadAnswer} {s : State} (h : s.inFlight = some .rdReq) :
    hostReadResponse s.resetCount r s = completeRead r s := if_pos ⟨rfl, h⟩

theorem hostWriteResponse_other_run {run : Nat} {r : WriteAnswer} {s : State} (h : run ≠ s.resetCount) :
    hostWriteResponse run r s = .next s := by
  unfold hostWriteResponse
  split
  · exact if_neg h
  · rfl

theorem hostWriteResponse_not_waiting {run : Nat} {r : WriteAnswer} {s : State} (h : ∀ v, s.inFlight ≠ some (.wrReq v)) :
    hostWriteResponse run r s = .next s := by
  unfold hostWriteResponse
  split
  · next v hv => exact absurd hv (h v)
  · rfl

theorem hostWriteResponse_waiting {r : WriteAnswer} {s : State} {v : Word} (h : s.inFlight = some (.wrReq v)) :
    hostWriteResponse s.resetCount r s = completeWrite r s := by
  simp [hostWriteResponse, h]

/-- Everything a host action can answer. -/
theorem hostAct_cases {action : HostAction} {s t : State} (h : hostAct action s = .next t) :
    t = s ∨ (action = .reset ∧ t = hostReset s) ∨
    (∃ recs attached, action = .launch recs attached ∧ s.run = .idle ∧ t = load Config.progMax recs attached s) ∨
    (∃ r, action = .readResponse s.resetCount r ∧ s.inFlight = some .rdReq ∧ completeRead r s = .next t) ∨
    (∃ r v, action = .writeResponse s.resetCount r ∧ s.inFlight = some (.wrReq v) ∧ completeWrite r s = .next t) := by
  cases action with
  | reset => exact .inr (.inl ⟨rfl, (Host.Outcome.next.inj h).symm⟩)
  | launch recs attached =>
    have h : hostLaunch recs attached s = t := Host.Outcome.next.inj h
    unfold hostLaunch at h
    split at h
    · next hr => exact .inr (.inr (.inl ⟨recs, attached, rfl, hr, h.symm⟩))
    · exact .inl h.symm
  | readResponse run r =>
    have h : hostReadResponse run r s = .next t := h
    unfold hostReadResponse at h
    split at h
    · next hr => exact .inr (.inr (.inr (.inl ⟨r, by rw [hr.1], hr.2, h⟩)))
    · exact .inl (Host.Outcome.next.inj h).symm
  | writeResponse run r =>
    have h : hostWriteResponse run r s = .next t := h
    unfold hostWriteResponse at h
    split at h
    · next v hv =>
      split at h
      · next hr => exact .inr (.inr (.inr (.inr ⟨r, v, by rw [hr], hv, h⟩)))
      · exact .inl (Host.Outcome.next.inj h).symm
    · exact .inl (Host.Outcome.next.inj h).symm

end Sys2Proof.Machine
end

