-- ==== Sys2Proof/Laws/Load.lean ====
section
/-! SUPPORT. The label map, the integer texts and the operand slots of the load (spec/40_dispatch.md R90,
spec/30_encoding.md R66, R72). -/

namespace Sys2Proof.Machine

theorem labelIndex_cons (e : String × Nat) (ls : List (String × Nat)) (name : String) :
    labelIndex (e :: ls) name = if name = e.1 then some e.2 else labelIndex ls name := by
  by_cases h : name = e.1
  · simp [labelIndex, List.lookup, h]
  · simp [labelIndex, List.lookup, beq_eq_false_iff_ne.2 h, h]

theorem labelIndex_mem {ls : List (String × Nat)} {name : String} {j : Nat} (h : labelIndex ls name = some j) :
    (name, j) ∈ ls := by
  induction ls with
  | nil => cases h
  | cons e ls ih =>
    rw [labelIndex_cons] at h
    split at h
    · next he => cases h; rw [he]; exact List.mem_cons_self
    · exact List.mem_cons_of_mem _ (ih h)

/-- The map after one addition. -/
theorem labelIndex_addLabel (ls : List (String × Nat)) (n name : String) (j : Nat) :
    labelIndex (addLabel ls n j) name = if name = n then some j else labelIndex ls name := by
  rw [addLabel, labelIndex_cons]
  by_cases h : name = n
  · rw [if_pos h, if_pos h]
  · rw [if_neg h, if_neg h]
    induction ls with
    | nil => rfl
    | cons e ls ih =>
      by_cases he : e.1 = n
      · rw [List.filter_cons_of_neg (by simpa using he), ih, labelIndex_cons, if_neg (fun hn => h (hn.trans he))]
      · rw [List.filter_cons_of_pos (by simpa using he), labelIndex_cons, labelIndex_cons, ih]

/-- The map after a record has been looked at. -/
theorem labelIndex_addRecordLabel (ls : List (String × Nat)) (label : Option String) (name : String) (j : Nat) :
    labelIndex (addRecordLabel ls label j) name =
      if label = some name ∧ name ≠ "" then some j else labelIndex ls name := by
  cases label with
  | none => rfl
  | some n =>
    by_cases hn : n = ""
    · rw [addRecordLabel, if_pos hn, if_neg fun h => h.2 ((Option.some.inj h.1).symm.trans hn)]
    · rw [addRecordLabel, if_neg hn, labelIndex_addLabel]
      by_cases h : name = n
      · rw [if_pos h, if_pos ⟨by rw [h], h ▸ hn⟩]
      · rw [if_neg h, if_neg fun e => h (Option.some.inj e.1).symm]

/-- What the ascending scan from index `j0` makes of a name: the highest index that carries it, else what the map had. -/
theorem labelIndex_scanLabels (name : String) (j : Nat) (rs : List Record) : ∀ (j0 : Nat) (ls : List (String × Nat)),
    labelIndex (scanLabels j0 rs ls) name = some j ↔
      (∃ k, j = j0 + k ∧ name ≠ "" ∧ rs[k]?.bind Record.label = some name ∧
        ∀ m, k < m → rs[m]?.bind Record.label ≠ some name) ∨
      (labelIndex ls name = some j ∧ (name = "" ∨ ∀ m : Nat, rs[m]?.bind Record.label ≠ some name)) := by
  induction rs with
  | nil => intro j0 ls; simp [scanLabels]
  | cons r rs ih =>
    intro j0 ls
    rw [scanLabels, ih, labelIndex_addRecordLabel]
    constructor
    · rintro (⟨k, rfl, hn, hk, hm⟩ | ⟨h, hm⟩)
      · refine .inl ⟨k + 1, by omega, hn, by simpa using hk, fun m h => ?_⟩
        obtain ⟨m, rfl⟩ : ∃ q, m = q + 1 := ⟨m - 1, by omega⟩
        simpa using hm m (by omega)
      · by_cases hr : r.label = some name ∧ name ≠ ""
        · rw [if_pos hr] at h
          refine .inl ⟨0, by injection h with h; omega, hr.2, by simpa using hr.1, fun m h => ?_⟩
          obtain ⟨m, rfl⟩ : ∃ q, m = q + 1 := ⟨m - 1, by omega⟩
          simpa using hm.resolve_left hr.2 m
        · rw [if_neg hr] at h
          refine .inr ⟨h, ?_⟩
          by_cases hn : name = ""
          · exact .inl hn
          · refine .inr fun m => ?_
            cases m with
            | zero => simpa using fun h => hr ⟨h, hn⟩
            | succ m => simpa using hm.resolve_left hn m
    · rintro (⟨k, rfl, hn, hk, hm⟩ | ⟨h, hm⟩)
      · cases k with
        | zero =>
          refine .inr ⟨?_, .inr fun m => by simpa using hm (m + 1) (by omega)⟩
          rw [if_pos ⟨by simpa using hk, hn⟩]; rfl
        | succ k => exact .inl ⟨k, by omega, hn, by simpa using hk, fun m h => by simpa using hm (m + 1) (by omega)⟩
      · have hr : ¬ (r.label = some name ∧ name ≠ "") := by
          rintro ⟨h1, h2⟩
          exact hm.resolve_left h2 0 (by simpa using h1)
        rw [if_neg hr]
        exact .inr ⟨h, hm.imp id fun hm m => by simpa using hm (m + 1)⟩

/-- Every index of the map after the scan is below the index where the scan ended. -/
theorem scanLabels_lt (rs : List Record) : ∀ (j0 : Nat) (ls : List (String × Nat)), (∀ e ∈ ls, e.2 < j0) →
    ∀ e ∈ scanLabels j0 rs ls, e.2 < j0 + rs.length := by
  induction rs with
  | nil => intro j0 ls h e he; exact h e he
  | cons r rs ih =>
    intro j0 ls h e he
    have : e.2 < j0 + 1 + rs.length := by
      refine ih (j0 + 1) _ (fun e he => ?_) e he
      unfold addRecordLabel at he
      split at he
      · exact Nat.lt_succ_of_lt (h e he)
      · split at he
        · exact Nat.lt_succ_of_lt (h e he)
        · rcases List.mem_cons.1 he with rfl | he
          · exact Nat.lt_succ_self _
          · exact Nat.lt_succ_of_lt (h e (List.mem_filter.1 he).1)
    rw [List.length_cons]; omega

/-! ### Integer texts -/

/-- What counts as a decimal digit, and its value. -/
theorem digitValue_eq {c : Char} {n : Nat} : digitValue c = some n ↔ n < 10 ∧ c = Char.ofNat ('0'.toNat + n) := by
  unfold digitValue
  have h0 : '0'.toNat = 48 := rfl
  have h9 : '9'.toNat = 57 := rfl
  rw [h0, h9]
  constructor
  · intro h
    split at h
    · next hc =>
      injection h with h
      refine ⟨by omega, ?_⟩
      have : 48 + n = c.toNat := by omega
      rw [this, Char.ofNat_toNat]
    · cases h
  · rintro ⟨h, rfl⟩
    have : (Char.ofNat (48 + n)).toNat = 48 + n := by
      interval_cases n <;> rfl
    rw [this, if_pos (by omega)]; congr 1; omega

/-- A run of digits is read as its decimal value, most significant digit first. -/
theorem digitsFrom_eq {cs : List Char} : ∀ {acc n : Nat}, digitsFrom acc cs = some n ↔
    ∃ ds : List (Fin 10), cs = ds.map (fun d => Char.ofNat ('0'.toNat + d.val)) ∧
      n = ds.foldl (fun a d => 10 * a + d.val) acc := by
  induction cs with
  | nil =>
    intro acc n
    constructor
    · intro h; cases h; exact ⟨[], rfl, rfl⟩
    · rintro ⟨ds, h, rfl⟩
      have : ds = [] := by simpa using h.symm
      subst this; rfl
  | cons c cs ih =>
    intro acc n
    unfold digitsFrom
    cases hd : digitValue c with
    | none =>
      refine ⟨fun h => (nomatch h), ?_⟩
      rintro ⟨ds, h, -⟩
      cases ds with
      | nil => cases h
      | cons d ds =>
        injection h with h1 h2
        rw [digitValue_eq.2 ⟨d.2, h1⟩] at hd
        cases hd
    | some v =>
      have hv := digitValue_eq.1 hd
      show digitsFrom _ cs = some n ↔ _
      rw [ih]
      constructor
      · rintro ⟨ds, h, hn⟩
        exact ⟨⟨v, hv.1⟩ :: ds, by rw [List.map_cons, ← h, ← hv.2], hn⟩
      · rintro ⟨ds, h, hn⟩
        cases ds with
        | nil => cases h
        | cons d ds =>
          injection h with h1 h2
          have : v = d.val := Option.some.inj (hd.symm.trans (digitValue_eq.2 ⟨d.2, h1⟩))
          exact ⟨ds, h2, by rw [hn, this]; rfl⟩

/-- Reading digits from the left is the library's value of the reversed digit list. -/
theorem foldl_digits (ds : List (Fin 10)) : ∀ acc : Nat, ds.foldl (fun a d => 10 * a + d.val) acc =
    10 ^ ds.length * acc + Nat.ofDigits 10 (ds.reverse.map (fun d => d.val)) := by
  induction ds with
  | nil => intro acc; simp
  | cons d ds ih => intro acc; simp [ih, Nat.ofDigits_append, pow_succ]; ring

/-- `[0-9]+` and its value. -/
theorem digits_eq {cs : List Char} {n : Nat} : digits cs = some n ↔ ∃ ds : List (Fin 10), ds ≠ [] ∧
    cs = ds.map (fun d => Char.ofNat ('0'.toNat + d.val)) ∧ n = Nat.ofDigits 10 (ds.reverse.map (fun d => d.val)) := by
  cases cs with
  | nil => exact ⟨fun h => (nomatch h), fun ⟨ds, h1, h2, _⟩ => absurd (by simpa using h2.symm) h1⟩
  | cons c cs =>
    show digitsFrom 0 (c :: cs) = _ ↔ _
    rw [digitsFrom_eq]
    constructor
    · rintro ⟨ds, h, hn⟩
      refine ⟨ds, fun e => ?_, h, by rw [hn, foldl_digits]; simp⟩
      rw [e] at h; cases h
    · rintro ⟨ds, -, h, hn⟩
      exact ⟨ds, h, by rw [hn, foldl_digits]; simp⟩

/-! ### Operand slots -/

/-- Whatever the operand text, the load writes into a slot of an operand kind what may stand there. -/
theorem classify_wellFormed (o : Option String) {k : OperandKind} {labels : List (String × Nat)} {len : Nat}
    (hl : ∀ e ∈ labels, e.2 < len) (hk : k ≠ .ignored) : Slot.wellFormed k len (classify o k labels) = true := by
  cases o with
  | none => cases k <;> rfl
  | some text =>
    cases k with
    | none => rfl
    | ignored => exact absurd rfl hk
    | int => simp only [classify]; split <;> rfl
    | label =>
      simp only [classify]
      split
      · next j hj =>
        have := hl _ (labelIndex_mem hj)
        simpa [Slot.wellFormed, indexWord] using lt_of_le_of_lt (Nat.mod_le j _) this
      · rfl

end Sys2Proof.Machine
end

