-- ==== Sys2Proof/Laws/PerInstr.lean ====
section
/-! SUPPORT. Facts about every instruction, one lemma per constructor of Instr. -/

/-- The opcode number of an instruction selects its constructor, and the two slots fill it (spec/30_encoding.md R73). -/
def Sys2Proof.Laws.OpcodeSelects.Statement (i : Sys2Proof.Instr) : Prop :=
  (Sys2Proof.instrOfOpcode i.opcode.toNat).map (fun mk => mk i.slot1 i.slot2) = some i

namespace Sys2Proof.Laws.OpcodeSelects

theorem start (o1 o2 : Slot) : Statement (.start o1 o2) := rfl
theorem ldc (o1 o2 : Slot) : Statement (.ldc o1 o2) := rfl
theorem ldv (o1 o2 : Slot) : Statement (.ldv o1 o2) := rfl
theorem add (o1 o2 : Slot) : Statement (.add o1 o2) := rfl
theorem sub (o1 o2 : Slot) : Statement (.sub o1 o2) := rfl
theorem mult (o1 o2 : Slot) : Statement (.mult o1 o2) := rfl
theorem divi (o1 o2 : Slot) : Statement (.divi o1 o2) := rfl
theorem inv (o1 o2 : Slot) : Statement (.inv o1 o2) := rfl
theorem and (o1 o2 : Slot) : Statement (.and o1 o2) := rfl
theorem or (o1 o2 : Slot) : Statement (.or o1 o2) := rfl
theorem neg (o1 o2 : Slot) : Statement (.neg o1 o2) := rfl
theorem cme (o1 o2 : Slot) : Statement (.cme o1 o2) := rfl
theorem cma (o1 o2 : Slot) : Statement (.cma o1 o2) := rfl
theorem ceq (o1 o2 : Slot) : Statement (.ceq o1 o2) := rfl
theorem cdif (o1 o2 : Slot) : Statement (.cdif o1 o2) := rfl
theorem cmeq (o1 o2 : Slot) : Statement (.cmeq o1 o2) := rfl
theorem cmaq (o1 o2 : Slot) : Statement (.cmaq o1 o2) := rfl
theorem jmp (o1 o2 : Slot) : Statement (.jmp o1 o2) := rfl
theorem jmpf (o1 o2 : Slot) : Statement (.jmpf o1 o2) := rfl
theorem alloc (o1 o2 : Slot) : Statement (.alloc o1 o2) := rfl
theorem dalloc (o1 o2 : Slot) : Statement (.dalloc o1 o2) := rfl
theorem rd (o1 o2 : Slot) : Statement (.rd o1 o2) := rfl
theorem prn (o1 o2 : Slot) : Statement (.prn o1 o2) := rfl
theorem str (o1 o2 : Slot) : Statement (.str o1 o2) := rfl
theorem call (o1 o2 : Slot) : Statement (.call o1 o2) := rfl
theorem ret (o1 o2 : Slot) : Statement (.ret o1 o2) := rfl
theorem hlt (o1 o2 : Slot) : Statement (.hlt o1 o2) := rfl
theorem labelMarker (o1 o2 : Slot) : Statement (.labelMarker o1 o2) := rfl

end Sys2Proof.Laws.OpcodeSelects
end

