-- ==== Sys2Proof/Machine/Assembler.lean ====
section
/-! DEFINITION. The line grammar of the assembler text (spec/30_encoding.md R63, R64): from a line to a record. The
parser is an external collaborator of the block (spec/00_scope.md R4 (a)); the spec keeps its grammar, and what the
grammar leaves open here is the model's choice (log 16). -/

namespace Sys2Proof.Machine

/-- White space inside a line. -/
def isBlank (c : Char) : Bool := c = ' ' || c = '\t'

/-- The pieces of a text between the characters that `sep` picks; `piece` is the current one, last character first. -/
def splitAt (sep : Char → Bool) : (text piece : List Char) → List (List Char)
  | [], piece => [piece.reverse]
  | c :: cs, piece => if sep c then piece.reverse :: splitAt sep cs [] else splitAt sep cs (c :: piece)

/-- The white-space separated tokens of a line. -/
def tokens (line : List Char) : List (List Char) := (splitAt isBlank line []).filter (· ≠ [])

/-- Operand text without the blanks around it. -/
def trimBlanks (t : List Char) : List Char := ((t.dropWhile isBlank).reverse.dropWhile isBlank).reverse

/-- The operands in the text after the mnemonic: none in an empty text; one; or two separated by a comma, with blanks
allowed around it. Anything else is malformed. -/
def operandsOf (text : List Char) : Option (Option String × Option String) :=
  if text = [] then some (none, none)
  else match (splitAt (· = ',') text []).map trimBlanks with
    | [a] => some (some (String.ofList a), none)
    | [a, b] => if a = [] ∨ b = [] then none else some (some (String.ofList a), some (String.ofList b))
    | _ => none

/-- The tokens after the mnemonic as one text, one blank between two tokens. -/
def joinTokens : List (List Char) → List Char
  | [] => []
  | [t] => t
  | t :: ts => t ++ ' ' :: joinTokens ts

/-- One line (R63): `<label> NULL` is a label-only line; otherwise the first token is the mnemonic. `none` is a
malformed line. -/
def parseLine (line : String) : Option Record :=
  match tokens line.toList with
  | [] => none
  | t :: ts =>
    if ts = ["NULL".toList] then some ⟨some (String.ofList t), "", none, none⟩
    else (operandsOf (joinTokens ts)).map fun o => ⟨none, String.ofList t, o.1, o.2⟩

/-- A program text; `none` where a line is malformed. -/
def parseProgram : List String → Option (List Record)
  | [] => some []
  | l :: ls => match parseLine l, parseProgram ls with
    | some r, some rs => some (r :: rs)
    | _, _ => none

end Sys2Proof.Machine
end

