-- ==== Sys2Proof/Tests/Slice0.lean ====
section
/-! SUPPORT. Tests and witnesses. The expected results come from spec/95_test_vectors.md (a test names its vector) or are
worked out by hand from the rule named. A `witness_<Name>` shows states and operands that meet the hypotheses of
`Obligations.<Name>`, clause by clause. -/

namespace Sys2Proof.Tests

open Sys2Proof.Machine

/-! ### Helpers -/

/-- No operand. -/
def none1 : Slot := ⟨.absent, 0⟩
/-- An integer operand. -/
def int (n : Int) : Slot := ⟨.int, BitVec.ofInt 64 n⟩
/-- A label operand. -/
def lab (j : Nat) : Slot := ⟨.label, BitVec.ofNat 64 j⟩
/-- An unusable operand. -/
def bad : Slot := ⟨.bad, 0⟩

/-- `MIN` of the test vectors. -/
def min64 : Word := 0x8000000000000000#64
/-- `MAX` of the test vectors. -/
def max64 : Word := 0x7FFFFFFFFFFFFFFF#64

/-- A state in RUNNING at index `ip` of image `prog`, with an attached channel. -/
def running (prog : List Diw) (ip : Nat) (sp : Int) (stack : Memory) : State :=
  { State.reset with run := .running, prog := prog, ip := ip, sp := sp, stack := stack, ioAttached := true }

/-- `START` and then `w`, about to be fetched. -/
def at1 (w : Diw) (sp : Int) (stack : Memory) : State := running [0#144, w] 1 sp stack

/-- What a test looks at: STATUS, `fault_ip`, `ip`, `sp` and the written cells. -/
structure View where
  status : BitVec 16
  faultIp : Nat
  ip : Nat
  sp : Int
  stack : Memory
deriving DecidableEq, Repr

/-- The view of an answer. -/
def view : Out → Option View
  | .next t => some ⟨t.status, t.faultIp, t.ip, t.sp, t.stack⟩
  | .fault _ => none
  | .refused _ => none

/-- The same with the channel's events for the stack. -/
structure ViewIo where
  status : BitVec 16
  ip : Nat
  sp : Int
  trace : List IoEvent
deriving DecidableEq, Repr

/-- The view of an answer of RD or PRN. -/
def viewIo : Out → Option ViewIo
  | .next t => some ⟨t.status, t.ip, t.sp, t.ioTrace⟩
  | .fault _ => none
  | .refused _ => none

/-! ### WellFormed refuses ill-formed terms (30_encoding.md R71) -/

theorem test_wellFormed_accepts : (Instr.alloc (int (-1)) (int 3)).wellFormed 1 = true ∧
    (Instr.jmp (lab 4) bad).wellFormed 5 = true ∧ (Instr.hlt none1 none1).wellFormed 1 = true := by decide
theorem test_wellFormed_absent_with_value : (Instr.ldc ⟨.absent, 1⟩ none1).wellFormed 9 = false := by decide
theorem test_wellFormed_bad_with_value : (Instr.ldc ⟨.bad, 1⟩ none1).wellFormed 9 = false := by decide
theorem test_wellFormed_int_in_label_slot : (Instr.jmp (int 1) none1).wellFormed 9 = false := by decide
theorem test_wellFormed_int_in_none_slot : (Instr.add (int 1) none1).wellFormed 9 = false := by decide
theorem test_wellFormed_label_in_int_slot : (Instr.ldc (lab 1) none1).wellFormed 9 = false := by decide
theorem test_wellFormed_label_in_none_slot : (Instr.ldc (int 1) (lab 1)).wellFormed 9 = false := by decide
theorem test_wellFormed_label_beyond_image : (Instr.call (lab 9) none1).wellFormed 9 = false := by decide
theorem test_wellFormed_start_with_operand : (Instr.start none1 bad).wellFormed 9 = false := by decide

/-! ### Decoding, every constructor by a word written out from R70 and R73 -/

theorem test_decode_control :
    decode 0x000000000000000000000000000000000000#144 = some (.start none1 none1) ∧
    decode 0x00000000000000000000000000000000001A#144 = some (.hlt none1 none1) ∧
    decode 0x00000000000000000000000000000000001B#144 = some (.labelMarker none1 none1) := by decide
/-- P0a's `LDC 5` in full; `STR 1` of P3; `LDV -1` of LS6. -/
theorem test_decode_load_store :
    decode 0x000000000000000000000000000000050101#144 = some (.ldc (int 5) none1) ∧
    decode 0x0000000000000000FFFFFFFFFFFFFFFF0102#144 = some (.ldv (int (-1)) none1) ∧
    decode 0x000000000000000000000000000000010117#144 = some (.str (int 1) none1) := by decide
theorem test_decode_arithmetic :
    decode 0x000000000000000000000000000000000003#144 = some (.add none1 none1) ∧
    decode 0x000000000000000000000000000000000004#144 = some (.sub none1 none1) ∧
    decode 0x000000000000000000000000000000000005#144 = some (.mult none1 none1) ∧
    decode 0x000000000000000000000000000000000006#144 = some (.divi none1 none1) ∧
    decode 0x000000000000000000000000000000000007#144 = some (.inv none1 none1) := by decide
theorem test_decode_logic :
    decode 0x000000000000000000000000000000000008#144 = some (.and none1 none1) ∧
    decode 0x000000000000000000000000000000000009#144 = some (.or none1 none1) ∧
    decode 0x00000000000000000000000000000000000A#144 = some (.neg none1 none1) := by decide
theorem test_decode_compare :
    decode 0x00000000000000000000000000000000000B#144 = some (.cme none1 none1) ∧
    decode 0x00000000000000000000000000000000000C#144 = some (.cma none1 none1) ∧
    decode 0x00000000000000000000000000000000000D#144 = some (.ceq none1 none1) ∧
    decode 0x00000000000000000000000000000000000E#144 = some (.cdif none1 none1) ∧
    decode 0x00000000000000000000000000000000000F#144 = some (.cmeq none1 none1) ∧
    decode 0x000000000000000000000000000000000010#144 = some (.cmaq none1 none1) := by decide
/-- `JMP L1` of P0b, `JMPF END` of P1, `CALL DBL` of P2. -/
theorem test_decode_branch :
    decode 0x000000000000000000000000000000030211#144 = some (.jmp (lab 3) none1) ∧
    decode 0x000000000000000000000000000000100212#144 = some (.jmpf (lab 16) none1) ∧
    decode 0x000000000000000000000000000000090218#144 = some (.call (lab 9) none1) ∧
    decode 0x000000000000000000000000000000000019#144 = some (.ret none1 none1) := by decide
/-- `ALLOC 2,1` and `DALLOC 0,3` of P3. -/
theorem test_decode_frame :
    decode 0x000000000000000100000000000000020513#144 = some (.alloc (int 2) (int 1)) ∧
    decode 0x000000000000000300000000000000000514#144 = some (.dalloc (int 0) (int 3)) := by decide
theorem test_decode_io :
    decode 0x000000000000000000000000000000000015#144 = some (.rd none1 none1) ∧
    decode 0x000000000000000000000000000000000016#144 = some (.prn none1 none1) := by decide
/-- R75: `0x1C`, `0xFE`, `0xFF` and every non-zero `rsv` are illegal. -/
theorem test_decode_illegal :
    decode 0x1C#144 = none ∧ decode 0xFE#144 = none ∧ decode 0xFF#144 = none ∧
    decode 0x1003#144 = none ∧ decode 0x8003#144 = none := by decide
/-- OP12's header: both tags are read, each in its place. -/
theorem test_decode_tags : decode 0x30E11#144 = some (.jmp (lab 3) bad) := by decide
theorem test_decodeTableWord : decodeTableWord 16 0x14 = some (.dalloc none1 none1) ∧ decodeTableWord 16 0x1C = none := by
  decide
/-- Every table row's header, placed after reset, is the instruction that the very next step runs. -/
theorem test_withFetchWord : ∀ opc : Fin 28,
    ((view (step (State.reset.withFetchWord 16 opc))).map View.ip) = some 2 := by decide

/-! ### Records and the load -/

/-- R63, R64. -/
theorem test_parseLine : parseLine "L1 NULL" = some ⟨some "L1", "", none, none⟩ ∧
    parseLine "ALLOC 0, 3" = some ⟨none, "ALLOC", some "0", some "3"⟩ ∧
    parseLine "NULL" = some ⟨none, "NULL", none, none⟩ := by decide
/-- R73's mnemonics in its order are the numbers from 0 on; R64: the case counts, and `NULL` is none. -/
theorem test_opcodeOf :
    ["START", "LDC", "LDV", "ADD", "SUB", "MULT", "DIVI", "INV", "AND", "OR", "NEG", "CME", "CMA", "CEQ", "CDIF", "CMEQ",
      "CMAQ", "JMP", "JMPF", "ALLOC", "DALLOC", "RD", "PRN", "STR", "CALL", "RETURN", "HLT", "ldc", "NULL"].map opcodeOf =
      (List.range 27).map (BitVec.ofNat 8) ++ [0xFF#8, 0xFF#8] := by decide
/-- R66's own examples, OP5 to OP9. -/
theorem test_parseInt : parseInt "007" = some 7#64 ∧ parseInt "-0" = some 0#64 ∧ parseInt "+007" = some 7#64 ∧
    parseInt "9223372036854775807" = some max64 ∧ parseInt "-9223372036854775808" = some min64 := by decide
theorem test_parseInt_refuses : parseInt "9223372036854775808" = none ∧ parseInt "0x10" = none ∧
    parseInt "12abc" = none ∧ parseInt "1.5" = none ∧ parseInt "+" = none ∧ parseInt "" = none := by decide
/-- LD12: the last mapping of a duplicate label wins. -/
theorem test_load_last_label_wins :
    (load 100 (parseProgram ["START", "JMP L", "L NULL", "HLT", "L NULL", "LDC 1"]) true State.reset).prog =
      [0x0#144, 0x40211#144, 0x1B#144, 0x1A#144, 0x1B#144, 0x10101#144] := by decide
/-- OP1, OP2, OP3, OP10, OP12, OP15, LD8, LD6. -/
theorem test_load_carries_errors :
    (load 100 (parseProgram ["START", "LDC", "LDC L1", "LDC 1,2", "JMP NOPE", "JMP L, L", "ALLOC 0, x", "FOO", "HLT 5, 6",
      "L NULL"]) true State.reset).prog =
      [0x0#144, 0x1#144, 0x301#144, 0x10D01#144, 0x311#144, 0x90E11#144, 0xD13#144, 0xFF#144, 0x1A#144, 0x1B#144] := by
  decide
/-- LD5's start of run (R90, S11): RUNNING, `ip = 1`, `sp = -1`. -/
theorem test_load_starts : (view (.next (load 100 (parseProgram ["START", "HLT"]) true State.reset))) =
    some ⟨0x0001#16, 0, 1, -1, []⟩ := by decide
/-- LD1, LD2, LD3, more than PROG_MAX records, and a malformed line: `STATUS = 0x0013`. -/
theorem test_load_faults : ∀ p ∈ [some [], parseProgram ["LDC 1", "HLT"], parseProgram ["start", "HLT"],
      parseProgram ["START", "LDC 1", "HLT"], parseProgram ["START", ""]],
    view (.next (load 2 p true State.reset)) = some ⟨0x0013#16, 0, 0, -1, []⟩ := by decide

/-! ### Dispatch -/

/-- LD4: the end of the image. -/
theorem test_end_of_image : view (step (running [0#144] 1 (-1) [])) = some ⟨0x0006#16, 0, 1, -1, []⟩ := by decide
/-- LD5. -/
theorem test_hlt : view (step (at1 0x1A#144 (-1) [])) = some ⟨0x0002#16, 0, 2, -1, []⟩ := by decide
/-- R94, BR15: START at index 0. -/
theorem test_start : view (step (running [0#144] 0 (-1) [])) = some ⟨0x0001#16, 0, 1, -1, []⟩ := by decide
/-- R93. -/
theorem test_labelMarker : view (step (at1 0x1B#144 (-1) [])) = some ⟨0x0001#16, 0, 2, -1, []⟩ := by decide
/-- LD8. -/
theorem test_unknown : view (step (at1 0xFF#144 (-1) [])) = some ⟨0x0023#16, 1, 2, -1, []⟩ := by decide
/-- OP4, OP13, OP11, OP14, OP17: OperandTypeError comes first. -/
theorem test_operand_type_errors :
    [0x303#144, 0xF11#144, 0x11#144, 0x113#144, 0x316#144, 0x1#144].map (fun w => view (step (at1 w (-1) []))) =
      List.replicate 6 (some ⟨0x0033#16, 1, 2, -1, []⟩) := by decide
/-- OP10, OP16, and R76: a LABEL value at `len`, an INT tag in a LABEL slot. -/
theorem test_label_not_found :
    [0x311#144, 0x318#144, 0x20211#144, 0x111#144].map (fun w => view (step (at1 w (-1) []))) =
      List.replicate 4 (some ⟨0x0043#16, 1, 2, -1, []⟩) := by decide

/-! ### Push and store -/

/-- LS1; LS2. -/
theorem test_ldc : view (step (at1 0x50101#144 (-1) [])) = some ⟨0x0001#16, 0, 2, 0, [(0, 5)]⟩ ∧
    view (step (at1 0x50101#144 8191 [])) = some ⟨0x0073#16, 1, 2, 8191, []⟩ := by decide
/-- LS3. -/
theorem test_ldv : view (step (at1 0x102#144 2 [(0, 7), (1, 1), (2, 2)])) =
    some ⟨0x0001#16, 0, 2, 3, [(0, 7), (1, 1), (2, 2), (3, 7)]⟩ := by decide
/-- LS6, LS7, and LS10's order: code 5 before code 7. -/
theorem test_ldv_address : view (step (at1 0xFFFFFFFFFFFFFFFF0102#144 (-1) [])) = some ⟨0x0053#16, 1, 2, -1, []⟩ ∧
    view (step (at1 0x20000102#144 8191 [])) = some ⟨0x0053#16, 1, 2, 8191, []⟩ := by decide
/-- LS11; LS15. -/
theorem test_str : view (step (at1 0x117#144 1 [(0, 1), (1, 9)])) = some ⟨0x0001#16, 0, 2, 0, [(0, 9), (1, 9)]⟩ ∧
    view (step (at1 0x10117#144 1 [(0, 4), (1, 6)])) = some ⟨0x0001#16, 0, 2, 0, [(0, 4), (1, 6)]⟩ := by decide
/-- LS13; LS14. -/
theorem test_str_faults : view (step (at1 0x117#144 (-1) [])) = some ⟨0x0063#16, 1, 2, -1, []⟩ ∧
    view (step (at1 0x20000117#144 (-1) [])) = some ⟨0x0053#16, 1, 2, -1, []⟩ := by decide

/-! ### Arithmetic, logic, comparison: what a binary or a unary instruction leaves of two cells -/

/-- One instruction on `[a, b]`. -/
def binaryView (w : Diw) (a b : Int) : Option View :=
  view (step (at1 w 1 [(0, BitVec.ofInt 64 a), (1, BitVec.ofInt 64 b)]))

/-- It went on, `[a, b]` has become `[r]`, and the old top is still in its cell. -/
def leaves (b r : Int) : Option View :=
  some ⟨0x0001#16, 0, 2, 0, [(0, BitVec.ofInt 64 r), (1, BitVec.ofInt 64 b)]⟩

/-- AR1, AR2. -/
theorem test_add : binaryView 0x3#144 5 3 = leaves 3 8 ∧ binaryView 0x3#144 (2 ^ 63 - 1) 1 = leaves 1 (-2 ^ 63) := by
  decide
/-- AR4: the underflow keeps `[3]`. -/
theorem test_add_underflow : view (step (at1 0x3#144 0 [(0, 3)])) = some ⟨0x0063#16, 1, 2, 0, [(0, 3)]⟩ := by decide
/-- AR7, AR8. -/
theorem test_sub : binaryView 0x4#144 4 10 = leaves 10 (-6) ∧ binaryView 0x4#144 (-2 ^ 63) 1 = leaves 1 (2 ^ 63 - 1) := by
  decide
/-- AR9, AR10, AR11. -/
theorem test_mult : binaryView 0x5#144 (-6) 7 = leaves 7 (-42) ∧
    binaryView 0x5#144 4294967296 4294967296 = leaves 4294967296 0 ∧
    binaryView 0x5#144 (-2 ^ 63) (-1) = leaves (-1) (-2 ^ 63) := by decide
/-- AR14, AR15, AR16, AR18, AR19. -/
theorem test_divi : binaryView 0x6#144 (-7) 2 = leaves 2 (-3) ∧ binaryView 0x6#144 7 (-2) = leaves (-2) (-3) ∧
    binaryView 0x6#144 (-7) (-2) = leaves (-2) 3 ∧ binaryView 0x6#144 (-1) 2 = leaves 2 0 ∧
    binaryView 0x6#144 (-2 ^ 63) (-1) = leaves (-1) (-2 ^ 63) := by decide
/-- AR21; AR23. -/
theorem test_divi_faults : binaryView 0x6#144 5 0 = some ⟨0x0083#16, 1, 2, 1, [(0, 5), (1, 0)]⟩ ∧
    view (step (at1 0x6#144 0 [(0, 0)])) = some ⟨0x0063#16, 1, 2, 0, [(0, 0)]⟩ := by decide
/-- AR24, AR26. -/
theorem test_inv : view (step (at1 0x7#144 0 [(0, 4)])) = some ⟨0x0001#16, 0, 2, 0, [(0, -4)]⟩ ∧
    view (step (at1 0x7#144 0 [(0, min64)])) = some ⟨0x0001#16, 0, 2, 0, [(0, min64)]⟩ := by decide
/-- LG14, LG16. -/
theorem test_neg : view (step (at1 0xA#144 0 [(0, 5)])) = some ⟨0x0001#16, 0, 2, 0, [(0, -4)]⟩ ∧
    view (step (at1 0xA#144 0 [(0, min64)])) = some ⟨0x0001#16, 0, 2, 0, [(0, BitVec.ofInt 64 (-9223372036854775807))]⟩ := by
  decide
/-- LG1, LG3, LG4. -/
theorem test_and : binaryView 0x8#144 1 1 = leaves 1 1 ∧ binaryView 0x8#144 2 1 = leaves 1 0 ∧
    binaryView 0x8#144 (-1) 1 = leaves 1 0 := by decide
/-- LG7, LG9, LG10. -/
theorem test_or : binaryView 0x9#144 0 1 = leaves 1 1 ∧ binaryView 0x9#144 2 0 = leaves 0 0 ∧
    binaryView 0x9#144 2 1 = leaves 1 1 := by decide
/-- CP1, CP2, CP3, CP4, CP6: `[a, b]`, then what CME, CMA, CEQ, CDIF, CMEQ, CMAQ leave. -/
theorem test_compare : ∀ row ∈ [(3, 5, [1, 0, 0, 1, 1, 0]), (5, 3, [0, 1, 0, 1, 0, 1]), (4, 4, [0, 0, 1, 0, 1, 1]),
      ((-1 : Int), (0 : Int), [(1 : Int), 0, 0, 1, 1, 0]), (-2 ^ 63, 2 ^ 63 - 1, [1, 0, 0, 1, 1, 0])],
    [0xB#144, 0xC#144, 0xD#144, 0xE#144, 0xF#144, 0x10#144].map (fun w => binaryView w row.1 row.2.1) =
      row.2.2.map (leaves row.2.1) := by decide

/-! ### Control transfer -/

/-- An image of 12 words with `w` at index 4. -/
def at4 (w : Diw) (sp : Int) (stack : Memory) : State := running (placeAt 4 w (List.replicate 12 0#144)) 4 sp stack

/-- BR1. -/
theorem test_jmp : view (step (at4 0x30211#144 0 [(0, 7)])) = some ⟨0x0001#16, 0, 3, 0, [(0, 7)]⟩ := by decide
/-- BR2, BR4, BR5. -/
theorem test_jmpf : view (step (at4 0x90212#144 0 [(0, 0)])) = some ⟨0x0001#16, 0, 9, -1, [(0, 0)]⟩ ∧
    view (step (at4 0x90212#144 0 [(0, 2)])) = some ⟨0x0001#16, 0, 5, -1, [(0, 2)]⟩ ∧
    view (step (at4 0x90212#144 (-1) [])) = some ⟨0x0063#16, 4, 5, -1, []⟩ := by decide
/-- BR8, BR9. -/
theorem test_call : view (step (at4 0xA0218#144 (-1) [])) = some ⟨0x0001#16, 0, 10, 0, [(0, 5)]⟩ ∧
    view (step (at4 0xA0218#144 8191 [])) = some ⟨0x0073#16, 4, 5, 8191, []⟩ := by decide
/-- BR10, BR13: `len` is still in range. -/
theorem test_ret : view (step (at4 0x19#144 0 [(0, 5)])) = some ⟨0x0001#16, 0, 5, -1, [(0, 5)]⟩ ∧
    view (step (at4 0x19#144 0 [(0, 12)])) = some ⟨0x0001#16, 0, 12, -1, [(0, 12)]⟩ := by decide
/-- BR12, BR14, BR11. -/
theorem test_ret_faults : view (step (at4 0x19#144 0 [(0, -1)])) = some ⟨0x0093#16, 4, 5, 0, [(0, -1)]⟩ ∧
    view (step (at4 0x19#144 0 [(0, 13)])) = some ⟨0x0093#16, 4, 5, 0, [(0, 13)]⟩ ∧
    view (step (at4 0x19#144 (-1) [])) = some ⟨0x0063#16, 4, 5, -1, []⟩ := by decide

/-! ### Frame -/

/-- The DIW of `ALLOC m,n` (opc `0x13`) or `DALLOC m,n` (opc `0x14`), by R70. -/
def frameWord (opc : BitVec 16) (m n : Int) : Diw := BitVec.ofInt 64 n ++ BitVec.ofInt 64 m ++ (0x0500#16 + opc)

/-- FR1; FR13: the cell after the old top is read after it has been written. -/
theorem test_alloc : view (step (at1 (frameWord 0x13 0 2) 1 [(0, 7), (1, 8)])) =
      some ⟨0x0001#16, 0, 2, 3, [(0, 7), (1, 8), (2, 7), (3, 8)]⟩ ∧
    view (step (at1 (frameWord 0x13 0 2) 0 [(0, 3), (1, 4)])) =
      some ⟨0x0001#16, 0, 2, 2, [(0, 3), (1, 3), (2, 3)]⟩ := by decide
/-- FR3, FR4, FR5, FR6, FR7. -/
theorem test_alloc_checks :
    view (step (at1 (frameWord 0x13 (-3) 0) 0 [(0, 7)])) = some ⟨0x0001#16, 0, 2, 0, [(0, 7)]⟩ ∧
    view (step (at1 (frameWord 0x13 0 (-1)) 0 [])) = some ⟨0x0053#16, 1, 2, 0, []⟩ ∧
    view (step (at1 (frameWord 0x13 (-1) 1) 0 [])) = some ⟨0x0053#16, 1, 2, 0, []⟩ ∧
    view (step (at1 (frameWord 0x13 8191 2) (-1) [])) = some ⟨0x0053#16, 1, 2, -1, []⟩ ∧
    view (step (at1 (frameWord 0x13 0 2) 8190 [])) = some ⟨0x0073#16, 1, 2, 8190, []⟩ := by decide
/-- FR10; FR14: cell 2 is written before it is popped. -/
theorem test_dalloc : view (step (at1 (frameWord 0x14 0 2) 3 [(0, 0), (1, 0), (2, 7), (3, 8)])) =
      some ⟨0x0001#16, 0, 2, 1, [(0, 7), (1, 8), (2, 7), (3, 8)]⟩ ∧
    view (step (at1 (frameWord 0x14 1 2) 3 [(0, 1), (1, 2), (2, 3), (3, 4)])) =
      some ⟨0x0001#16, 0, 2, 1, [(0, 1), (1, 4), (2, 4), (3, 4)]⟩ := by decide
/-- FR15, FR16, FR18. -/
theorem test_dalloc_checks :
    view (step (at1 (frameWord 0x14 0 3) 1 [(0, 7), (1, 8)])) = some ⟨0x0063#16, 1, 2, 1, [(0, 7), (1, 8)]⟩ ∧
    view (step (at1 (frameWord 0x14 0 0) (-1) [])) = some ⟨0x0001#16, 0, 2, -1, []⟩ ∧
    view (step (at1 (frameWord 0x14 8190 3) 2 [])) = some ⟨0x0053#16, 1, 2, 2, []⟩ := by decide

/-! ### The I/O channel -/

/-- RD with the host's answer at hand. -/
def rdState (sp : Int) (answers : List ReadAnswer) : State := { at1 0x15#144 sp [] with readAnswers := answers }
/-- PRN of 8 with the host's answer at hand. -/
def prnState (answers : List WriteAnswer) : State := { at1 0x16#144 0 [(0, 8)] with writeAnswers := answers }

/-- IO1, IO3, IO5, IO10. -/
theorem test_rd : viewIo (step (rdState (-1) [.value 42])) = some ⟨0x0001#16, 2, 0, [.rdReq, .rdResp (.value 42)]⟩ ∧
    viewIo (step (rdState (-1) [.error])) = some ⟨0x00A3#16, 2, -1, [.rdReq, .rdResp .error]⟩ ∧
    viewIo (step (rdState 8191 [.value 42])) = some ⟨0x0073#16, 2, 8191, []⟩ ∧
    viewIo (step (rdState (-1) [])) = some ⟨0x0001#16, 2, -1, [.rdReq]⟩ := by decide
/-- IO6, IO8. -/
theorem test_prn : viewIo (step (prnState [.ok])) = some ⟨0x0001#16, 2, -1, [.wrReq 8, .wrResp .ok]⟩ ∧
    viewIo (step (prnState [.error])) = some ⟨0x00A3#16, 2, 0, [.wrReq 8, .wrResp .error]⟩ := by decide
/-- IO4, IO9, IO7. -/
theorem test_io_detached : viewIo (step { rdState (-1) [.value 42] with ioAttached := false }) = some ⟨0x00A3#16, 2, -1, []⟩ ∧
    viewIo (step { prnState [.ok] with ioAttached := false }) = some ⟨0x00A3#16, 2, 0, []⟩ ∧
    viewIo (step (at1 0x16#144 (-1) [])) = some ⟨0x0063#16, 2, -1, []⟩ := by decide

/-! ### The host -/

/-- RD in flight (IO10). -/
def waitingRd : State := { rdState (-1) [] with ip := 2, inFlight := some .rdReq, ioTrace := [.rdReq] }
/-- PRN of 8 in flight. -/
def waitingPrn : State := { prnState [] with ip := 2, inFlight := some (.wrReq 8), ioTrace := [.wrReq 8] }

/-- The host's answer completes the RD in flight (R220); RS2: after a reset it is ignored. -/
theorem test_read_response :
    viewIo (hostAct (.readResponse 0 (.value 5)) waitingRd) = some ⟨0x0001#16, 2, 0, [.rdReq, .rdResp (.value 5)]⟩ ∧
    viewIo (hostAct (.readResponse 0 (.value 5)) (hostReset waitingRd)) = some ⟨0x0000#16, 0, -1, []⟩ := by decide
/-- R230, D37: with a request of the run after the first reset in flight, the late answer to the run before it is
ignored, and the request's own answer completes it. -/
theorem test_late_response :
    viewIo (hostAct (.readResponse 0 (.value 5)) { waitingRd with resetCount := 1 }) =
      some ⟨0x0001#16, 2, -1, [.rdReq]⟩ ∧
    viewIo (hostAct (.readResponse 1 (.value 6)) { waitingRd with resetCount := 1 }) =
      some ⟨0x0001#16, 2, 0, [.rdReq, .rdResp (.value 6)]⟩ ∧
    viewIo (hostAct (.writeResponse 0 .ok) { waitingPrn with resetCount := 1 }) = some ⟨0x0001#16, 2, 0, [.wrReq 8]⟩ := by
  decide
/-- RS3. -/
theorem test_launch_ignored : hostLaunch (some []) true (running [0#144] 1 (-1) []) = running [0#144] 1 (-1) [] := by decide
/-- RS4, and no readout while RUNNING (R220). -/
theorem test_readout : readout .sp { running [0#144] 1 (-1) [] with run := .halted } = some 0xFFFFFFFFFFFFFFFF#64 ∧
    readout .sp (running [0#144] 1 (-1) []) = none := by decide

/-! ### Witnesses

The states a statement about `exec` speaks of are those after the fetch, here with `ip = 2`. -/

/-- After the fetch of the instruction at index 1 of a two-word image, with three cells written. -/
def after (sp : Int) : State := running [0#144, 0#144] 2 sp [(0, 5), (1, 3), (8191, 1)]

theorem witness_EncodeOfDecodeIsIdentity : decode 0x30E11#144 = some (.jmp (lab 3) bad) := test_decode_tags

theorem witness_HeaderSelectsByMaskedMatch :
    Diw.header 0x30E11#144 &&& 0xF0FF#16 = BitVec.setWidth 16 (Instr.jmp (lab 3) bad).opcode ∧
    (Instr.jmp (lab 3) bad).slot1 = Diw.slot1 0x30E11#144 ∧ (Instr.jmp (lab 3) bad).slot2 = Diw.slot2 0x30E11#144 := by
  decide

/-- The least illegal opcode number, and a legal one with `rsv` not 0. -/
theorem witness_IllegalHeaderRaisesUnknownOperation :
    0x1C ≤ (Diw.opc 0x1C#144).toNat ∧ Diw.rsv 0x1003#144 ≠ 0 ∧ (at1 0x1C#144 0 []).run = .running ∧
    (at1 0x1C#144 0 []).inFlight = none ∧ (at1 0x1C#144 0 []).prog[(at1 0x1C#144 0 []).ip]? = some 0x1C#144 ∧
    (at1 0x1003#144 0 []).prog[(at1 0x1003#144 0 []).ip]? = some 0x1003#144 := by decide

theorem witness_OperationSelectsOpcodeByExactLookup :
    (⟨some "L", "", some "5", none⟩ : Record).operation = "" ∧
    (∃ table : List (String × BitVec 8), table = [
      ("START", 0x00#8), ("LDC", 0x01#8), ("LDV", 0x02#8), ("ADD", 0x03#8), ("SUB", 0x04#8), ("MULT", 0x05#8),
      ("DIVI", 0x06#8), ("INV", 0x07#8), ("AND", 0x08#8), ("OR", 0x09#8), ("NEG", 0x0A#8), ("CME", 0x0B#8),
      ("CMA", 0x0C#8), ("CEQ", 0x0D#8), ("CDIF", 0x0E#8), ("CMEQ", 0x0F#8), ("CMAQ", 0x10#8), ("JMP", 0x11#8),
      ("JMPF", 0x12#8), ("ALLOC", 0x13#8), ("DALLOC", 0x14#8), ("RD", 0x15#8), ("PRN", 0x16#8), ("STR", 0x17#8),
      ("CALL", 0x18#8), ("RETURN", 0x19#8), ("HLT", 0x1A#8)] ∧ ("HLT", 0x1A#8) ∈ table ∧ "FOO" ≠ "" ∧
      "FOO" ∉ table.map Prod.fst) := ⟨rfl, _, rfl, by decide, by decide, by decide⟩

/-- The records of `START / JMP L / L NULL`. -/
def smallRecords : List Record := [⟨none, "START", none, none⟩, ⟨none, "JMP", some "L", none⟩, ⟨some "L", "", none, none⟩]

/-- A marker, an unknown mnemonic, `LDC 5`, a mnemonic of each signature, and texts of both kinds in both cases. -/
theorem witness_RecordsDecodeIntoTheirWords :
    (⟨some "L", "", none, none⟩ : Record).operation = "" ∧ opcodeOf "FOO" ∈ [0xFF#8, 0x00#8, 0x1A#8] ∧
    opcodeOf "LDC" ∉ [0xFF#8, 0x00#8, 0x1A#8] ∧ "STR" ∈ ["LDC", "LDV", "STR"] ∧ "DALLOC" ∈ ["ALLOC", "DALLOC"] ∧
    "CALL" ∈ ["JMP", "JMPF", "CALL"] ∧ "RETURN" ∈ ["ADD", "SUB", "MULT", "DIVI", "INV", "AND", "OR",
      "NEG", "CME", "CMA", "CEQ", "CDIF", "CMEQ", "CMAQ", "RD", "PRN", "RETURN"] ∧ parseInt "5" = some 5#64 ∧ parseInt "L" = none ∧
    labelIndex [("L", 2)] "L" = some 2 ∧ labelIndex [("L", 2)] "5" = none := by decide

theorem witness_LoadedWordsAreWellFormed :
    0x20211#144 ∈ (startRun smallRecords true State.reset).prog ∧ decode 0x20211#144 = some (.jmp (lab 2) none1) := by decide

/-- Every reason for a load fault, `PROG_MAX + 1` records among them, and a program of one record, which every
`PROG_MAX` accepts. -/
theorem witness_LaunchLoadsAndStartsAtIndexOne :
    (after 0).run ≠ .idle ∧ State.reset.run = .idle ∧ ([] : List Record) = [] ∧
    (∃ r rest, smallRecords.drop 1 = r :: rest ∧ r.operation ≠ "START") ∧
    Config.progMax < (List.replicate (Config.progMax + 1) (⟨none, "START", none, none⟩ : Record)).length ∧
    (∃ r rest, smallRecords.take 1 = r :: rest ∧ r.operation = "START" ∧ (smallRecords.take 1).length ≤ Config.progMax) := by
  refine ⟨nofun, rfl, rfl, ⟨_, _, rfl, by decide⟩, ?_, ⟨_, _, rfl, rfl, ?_⟩⟩
  · rw [List.length_replicate]; exact Nat.lt_succ_self _
  · exact Nat.succ_le_succ (Nat.zero_le _)

/-- The states of these tests that run with nothing in flight meet the invariant. -/
theorem running_inv {prog : List Diw} {ip : Nat} {sp : Int} {stack : Memory} (h : -1 ≤ sp ∧ sp ≤ 8191)
    (hi : ip ≤ prog.length) (hw : stack.wf) (hp : 1 ≤ prog.length) : (running prog ip sp stack).Inv where
  sp_range := spInRange_iff.2 h
  ip_le_len := hi
  stack_wf := hw
  haltCause_halted h := nomatch h
  faultCode_faulted := ⟨fun h => absurd rfl h, nofun⟩
  faultIp_faulted _ := rfl
  idle_empty h := nomatch h
  image_nonempty _ := hp
  labels_in_image _ h := nomatch h
  inFlight_running h := absurd rfl h
  read_has_room h := nomatch h
  write_has_value _ h := nomatch h

theorem at1_inv (w : Diw) : (at1 w 0 [(0, 8)]).Inv :=
  running_inv (by decide) (Nat.le_succ 1) (by decide) (Nat.le_succ 1)

theorem waitingRd_inv : waitingRd.Inv where
  sp_range := by decide
  ip_le_len := by decide
  stack_wf := by decide
  haltCause_halted := by decide
  faultCode_faulted := by decide
  faultIp_faulted := by decide
  idle_empty h := nomatch h
  image_nonempty _ := by decide
  labels_in_image _ h := nomatch h
  inFlight_running _ := by decide
  read_has_room _ := by decide
  write_has_value _ h := nomatch h

theorem waitingPrn_inv : waitingPrn.Inv where
  sp_range := by decide
  ip_le_len := by decide
  stack_wf := by decide
  haltCause_halted := by decide
  faultCode_faulted := by decide
  faultIp_faulted := by decide
  idle_empty h := nomatch h
  image_nonempty _ := by decide
  labels_in_image _ h := nomatch h
  inFlight_running _ := by decide
  read_has_room h := nomatch h
  write_has_value v h := by cases h; decide

theorem reset_inv : State.reset.Inv where
  sp_range := by decide
  ip_le_len := by decide
  stack_wf := by decide
  haltCause_halted h := nomatch h
  faultCode_faulted := by decide
  faultIp_faulted _ := rfl
  idle_empty _ := by decide
  image_nonempty h := by rcases h with h | h <;> cases h
  labels_in_image _ h := nomatch h
  inFlight_running h := absurd rfl h
  read_has_room h := nomatch h
  write_has_value _ h := nomatch h

/-- A step that runs an instruction, one that ends the run, and the two that go on with a transaction. -/
theorem witness_StepKeepsInvariant :
    ((at1 0x7#144 0 [(0, 8)]).Inv ∧ ∃ t, step (at1 0x7#144 0 [(0, 8)]) = .next t) ∧
    ((at1 0x1A#144 0 [(0, 8)]).Inv ∧ ∃ t, step (at1 0x1A#144 0 [(0, 8)]) = .next t) ∧
    (waitingRd.Inv ∧ ∃ t, step waitingRd = .next t) ∧ (waitingPrn.Inv ∧ ∃ t, step waitingPrn = .next t) :=
  ⟨⟨at1_inv _, _, rfl⟩, ⟨at1_inv _, _, rfl⟩, ⟨waitingRd_inv, _, rfl⟩, ⟨waitingPrn_inv, _, rfl⟩⟩

/-- A reset during an RD's wait, the next launch, and a response to the run of number 0. -/
theorem witness_ResetRestoresEveryField : ∃ t u, hostAct .reset waitingRd = .next t ∧
    hostAct (.launch (some (smallRecords.take 1)) true) t = .next u ∧ Reaches t u ∧ 0 ≤ waitingRd.resetCount :=
  ⟨_, _, rfl, rfl, .act (.launch (some (smallRecords.take 1)) true) .here rfl, Nat.le_refl 0⟩

theorem witness_ResponsesCompleteTheRequestInFlight : waitingRd.Inv ∧ waitingRd.inFlight = some .rdReq ∧
    waitingPrn.Inv ∧ waitingPrn.inFlight = some (.wrReq 8) ∧ State.reset.Inv ∧ State.reset.inFlight ≠ some .rdReq ∧
    ∀ v, State.reset.inFlight ≠ some (.wrReq v) :=
  ⟨waitingRd_inv, rfl, waitingPrn_inv, rfl, reset_inv, nofun, nofun⟩

theorem witness_HostActionsKeepInvariant :
    (waitingRd.Inv ∧ ∃ t, hostAct .reset waitingRd = .next t) ∧
    (State.reset.Inv ∧ ∃ t, hostAct (.launch (some smallRecords) true) State.reset = .next t) ∧
    (waitingRd.Inv ∧ ∃ t, hostAct (.readResponse 0 (.value 5)) waitingRd = .next t) ∧
    (waitingPrn.Inv ∧ ∃ t, hostAct (.writeResponse 0 .ok) waitingPrn = .next t) :=
  ⟨⟨waitingRd_inv, _, rfl⟩, ⟨reset_inv, _, rfl⟩, ⟨waitingRd_inv, _, rfl⟩, ⟨waitingPrn_inv, _, rfl⟩⟩

theorem witness_InvariantStatesNeverStop : State.reset.Inv ∧ waitingPrn.Inv := ⟨reset_inv, waitingPrn_inv⟩

theorem witness_StepKeepsImageAndLabels : ∃ t, step (at1 0x7#144 0 [(0, 8)]) = .next t := ⟨_, rfl⟩

/-- A run that has ended with HLT. -/
def halted : State := (running [0#144] 1 0 [(0, 8)]).halt false

theorem halted_inv : halted.Inv where
  sp_range := by decide
  ip_le_len := by decide
  stack_wf := by decide
  haltCause_halted _ := rfl
  faultCode_faulted := by decide
  faultIp_faulted _ := rfl
  idle_empty h := nomatch h
  image_nonempty _ := by decide
  labels_in_image _ h := nomatch h
  inFlight_running h := absurd rfl h
  read_has_room h := nomatch h
  write_has_value _ h := nomatch h

theorem witness_EndedRunsAreLeftOnlyByReset : halted.run = .halted ∧ halted.Inv ∧
    HostAction.readResponse 0 (.value 5) ≠ .reset ∧ (faultEntry .stackUnderflow (after 0)).run = .faulted ∧
    (after 0).run ≠ .idle := ⟨rfl, halted_inv, nofun, rfl, nofun⟩

/-- The three ways a run ends: the end of the image, HLT, a fault. -/
theorem witness_OnlyEndHltOrFaultEndARun :
    (∃ t, (after 0).run = .running ∧ step (after 0) = .next t ∧ t.run ≠ .running) ∧
    (∃ t, step (at1 0x1A#144 0 []) = .next t ∧ t.run ≠ .running) ∧
    (∃ t, step (at1 0xFF#144 0 []) = .next t ∧ t.run ≠ .running) :=
  ⟨⟨_, rfl, rfl, nofun⟩, ⟨_, rfl, nofun⟩, ⟨_, rfl, nofun⟩⟩

theorem witness_ReadoutAnswersOnlyWhenNotRunning : (after 0).run = .running ∧ halted.run ≠ .running ∧ halted.SpInRange ∧
    ((0 : Int) ≤ 8191 ∧ (8191 : Int) ≤ Config.stackCap - 1) ∧ ((-1 : Int) < 0 ∧ Config.stackCap ≤ 8192) := by decide

theorem witness_StepRunsDecodedInstruction : (at1 0x50101#144 0 []).run = .running ∧ (at1 0x50101#144 0 []).inFlight = none ∧
    (at1 0x50101#144 0 []).prog[(at1 0x50101#144 0 []).ip]? = some 0x50101#144 ∧
    decode 0x50101#144 = some (.ldc (int 5) none1) := by decide

theorem witness_EndOfImageHalts : (after 0).run = .running ∧ (after 0).inFlight = none ∧ (after 0).ip = (after 0).len := by
  decide

/-- An absent label, and a label at `len`. -/
theorem witness_OperandCheckComesFirst :
    ((Instr.jmp none1 none1).sig.1 ≠ .ignored ∧ ¬ SlotKindOk (Instr.jmp none1 none1).sig.1 none1) ∧
    (SlotKindOk (Instr.jmp (lab 2) none1).sig.1 (lab 2) ∧ SlotKindOk (Instr.jmp (lab 2) none1).sig.2 none1 ∧
      ¬ SlotLabelOk (Instr.jmp (lab 2) none1).sig.1 (after 0).len (lab 2)) :=
  ⟨⟨nofun, fun h => h rfl⟩, nofun, rfl, fun h => absurd (h rfl).2 (by decide)⟩

/-- A stack fault, an I/O fault of a waiting PRN, a load fault. -/
theorem witness_FaultsArePreciseAndRecordTheirIndex :
    (∃ t, (at1 0x3#144 0 [(0, 8)]).Inv ∧ (at1 0x3#144 0 [(0, 8)]).inFlight = none ∧
      step (at1 0x3#144 0 [(0, 8)]) = .next t ∧ t.run = .faulted ∧ t.faultCode ≠ .ioChannelError) ∧
    (∃ t, State.Inv { waitingPrn with writeAnswers := [.error] } ∧ waitingPrn.inFlight ≠ none ∧
      step { waitingPrn with writeAnswers := [.error] } = .next t ∧ t.run = .faulted) ∧
    (∃ t, State.reset.Inv ∧ hostAct (.launch none true) State.reset = .next t ∧ t.run = .faulted) :=
  have h := waitingPrn_inv
  ⟨⟨_, at1_inv _, rfl, rfl, rfl, nofun⟩,
    ⟨_, ⟨h.1, h.2, h.3, h.4, h.5, h.6, h.7, h.8, h.9, h.10, h.11, h.12⟩, nofun, rfl, rfl⟩, ⟨_, reset_inv, rfl, rfl⟩⟩

theorem witness_StartAndLabelMarkerAreNoOps :
    ∀ e ∈ [(0x0#144, Instr.start none1 none1), (0x1B#144, Instr.labelMarker none1 none1)],
      (at1 e.1 0 []).run = .running ∧ (at1 e.1 0 []).inFlight = none ∧
      (at1 e.1 0 []).prog[(at1 e.1 0 []).ip]? = some e.1 ∧ decode e.1 = some e.2 := by decide

theorem witness_HltHalts : (at1 0x1A#144 0 []).run = .running ∧ (at1 0x1A#144 0 []).inFlight = none ∧
    (at1 0x1A#144 0 []).prog[(at1 0x1A#144 0 []).ip]? = some 0x1A#144 ∧
    decode 0x1A#144 = some (.hlt none1 none1) := by decide

theorem witness_LdcPushesItsLiteral : (after 8191).SpInRange ∧ ¬ OneInt none1 none1 ∧ OneInt (int 5) none1 ∧
    (after 8191).sp = Config.stackCap - 1 ∧ (after 8190).SpInRange ∧ (after 8190).sp < Config.stackCap - 1 := by decide

theorem witness_LdvPushesTheAddressedCell : ¬ OneInt bad none1 ∧ OneInt (int 8191) none1 ∧
    ¬ Config.inArray (int (-1)).val.toInt ∧ ¬ Config.inArray (int 8192).val.toInt ∧ Config.inArray (int 8191).val.toInt ∧
    Config.inArray (int 0).val.toInt ∧ (after 8191).SpInRange ∧ (after 8191).sp = Config.stackCap - 1 ∧
    (after (-1)).SpInRange ∧ (after (-1)).sp < Config.stackCap - 1 := by decide

theorem witness_StrPopsIntoTheAddressedCell : ¬ OneInt (int 0) (int 0) ∧ OneInt (int 8191) none1 ∧
    ¬ Config.inArray (int 8192).val.toInt ∧ Config.inArray (int 8191).val.toInt ∧ (after (-1)).SpInRange ∧
    (after (-1)).sp < Config.startSp + 1 ∧ (after 0).SpInRange ∧ Config.startSp + 1 ≤ (after 0).sp := by decide

theorem witness_StoreThenLoadReturnsTheValue : (after 0).SpInRange ∧ OneInt (int 0) none1 ∧
    Config.inArray (int 0).val.toInt ∧ Config.startSp + 1 ≤ (after 0).sp := by decide

theorem witness_UnwrittenCellsReadInitStack : (after 8190).SpInRange ∧ OneInt (int 2) none1 ∧
    Config.inArray (int 2).val.toInt ∧ (after 8190).sp < Config.stackCap - 1 ∧
    (after 8190).stack.peek (int 2).val.toInt.toNat = none := by decide

theorem witness_DivisionTruncatesTowardZero : (-1 : Int) ≠ 0 ∧ (0 : Int) ≤ -7 * -1 ∧ -7 * (2 : Int) ≤ 0 := by decide

/-- Every clause of BinaryRule, for AddSubMultCombineTheTopTwo, AndOrTestEqualityToOne and
ComparisonsReplaceTheTopTwoByTheirTruth: an operand, one value, exactly two values, a full stack. -/
theorem witness_BinaryRule : ¬ NoOperands (int 1) none1 ∧ NoOperands none1 none1 ∧ (after 0).SpInRange ∧
    (after 0).sp < Config.startSp + 2 ∧ (after 1).SpInRange ∧ Config.startSp + 2 ≤ (after 1).sp ∧
    (after 8191).SpInRange ∧ Config.startSp + 2 ≤ (after 8191).sp := by decide

theorem witness_DiviDividesSecondByTop : (after 0).sp < Config.startSp + 2 ∧ (after 1).SpInRange ∧ NoOperands none1 none1 ∧
    Config.startSp + 2 ≤ (after 1).sp ∧ (after 1).cell (after 1).sp ≠ 0#64 ∧
    (running [] 0 1 [(1, 0)]).SpInRange ∧ (running [] 0 1 [(1, 0)]).cell 1 = 0#64 := by decide

/-- Every clause of UnaryRule, for InvAndNegReplaceTheTop. -/
theorem witness_UnaryRule : ¬ NoOperands none1 bad ∧ NoOperands none1 none1 ∧ (after (-1)).SpInRange ∧
    (after (-1)).sp < Config.startSp + 1 ∧ (after 0).SpInRange ∧ Config.startSp + 1 ≤ (after 0).sp := by decide

theorem witness_InvAndNegTwiceRestore : (after 0).SpInRange ∧ NoOperands none1 none1 ∧
    Config.startSp + 1 ≤ (after 0).sp := by decide

theorem witness_ComparisonsComplementEachOther : (after 1).SpInRange ∧ NoOperands none1 none1 ∧
    Config.startSp + 2 ≤ (after 1).sp := by decide

/-- Both clauses of LabelOperandFaults: an absent label, a second operand, a label at `len`, a tag that is no label. -/
theorem witness_LabelOperandFaults : none1.tag = .absent ∧ bad.tag ≠ .absent ∧ (lab 2).tag ≠ .absent ∧
    ¬ OneLabel (after 0).len (lab 2) none1 ∧ ¬ OneLabel (after 0).len (int 1) none1 := by decide

/-- The highest index of the image. -/
theorem witness_JmpSetsIp : OneLabel (after 0).len (lab 1) none1 := by decide

theorem witness_JmpfPopsAndBranchesOnZero : OneLabel (after 0).len (lab 1) none1 ∧ (after (-1)).SpInRange ∧
    (after (-1)).sp < Config.startSp + 1 ∧ (after 0).SpInRange ∧ Config.startSp + 1 ≤ (after 0).sp ∧
    (after 0).cell (after 0).sp ≠ 0#64 ∧ (running [0#144] 1 0 [(0, 0)]).SpInRange ∧
    OneLabel (running [0#144] 1 0 [(0, 0)]).len (lab 0) none1 ∧ (running [0#144] 1 0 [(0, 0)]).cell 0 = 0#64 := by decide

theorem witness_CallPushesTheReturnIndex : OneLabel (after 0).len (lab 1) none1 ∧ (after 8191).SpInRange ∧
    (after 8191).sp = Config.stackCap - 1 ∧ (after 8190).SpInRange ∧ (after 8190).sp < Config.stackCap - 1 := by decide

/-- A return index of -1, of `len + 1` and of `len`. -/
theorem witness_ReturnPopsIntoIp : ¬ NoOperands (lab 0) none1 ∧ NoOperands none1 none1 ∧
    (after (-1)).sp < Config.startSp + 1 ∧ Config.startSp + 1 ≤ (after 0).sp ∧
    ((running [0#144] 1 0 [(0, -1)]).cell 0).toInt < 0 ∧
    ((running [0#144] 1 0 [(0, 2)]).len : Int) < ((running [0#144] 1 0 [(0, 2)]).cell 0).toInt ∧
    0 ≤ ((running [0#144] 1 0 [(0, 1)]).cell 0).toInt ∧
    ((running [0#144] 1 0 [(0, 1)]).cell 0).toInt ≤ (running [0#144] 1 0 [(0, 1)]).len := by decide

/-- A CALL at the last index: the return index is `len`. The returning state is the one right after the CALL. -/
theorem witness_CallReturnRoundTrip : (after 0).SpInRange ∧ (after 0).ip ≤ (after 0).len ∧ (after 0).len < 2 ^ 63 ∧
    OneLabel (after 0).len (lab 1) none1 ∧ NoOperands none1 none1 ∧ (after 0).sp < Config.stackCap - 1 ∧
    ∃ t u, exec (.call (lab 1) none1) (after 0) = .next t ∧ u = t ∧ u.sp = t.sp ∧ u.cell u.sp = t.cell t.sp ∧
      u.len = t.len :=
  ⟨by decide, by decide, by decide, by decide, by decide, by decide, _, _, rfl, rfl, rfl, rfl, rfl⟩

/-- Each clause at its border: a negative count, a range that ends past the array, the whole array, an overflow by one,
a block that just fits. -/
theorem witness_AllocPushesTheRange : ¬ TwoInts (int 0) none1 ∧ TwoInts (int 0) (int 1) ∧
    ¬ RangeAccepted (int 0).val.toInt (int (-1)).val.toInt ∧ ¬ RangeAccepted (int 8191).val.toInt (int 2).val.toInt ∧
    RangeAccepted (int (-3)).val.toInt (int 0).val.toInt ∧ RangeAccepted (int 0).val.toInt (int 8192).val.toInt ∧
    (after 0).SpInRange ∧ Config.stackCap - 1 < (after 0).sp + (int 8192).val.toInt ∧
    (after (-1)).SpInRange ∧ (after (-1)).sp + (int 8192).val.toInt ≤ Config.stackCap - 1 := by decide

theorem witness_DallocPopsIntoTheRange : ¬ TwoInts (int 0) bad ∧ TwoInts (int 0) (int 1) ∧
    ¬ RangeAccepted (int (-1)).val.toInt (int 1).val.toInt ∧ RangeAccepted (int 8190).val.toInt (int 2).val.toInt ∧
    (after 0).SpInRange ∧ (after 0).sp - Config.startSp < (int 2).val.toInt ∧
    (after 1).SpInRange ∧ (int 2).val.toInt ≤ (after 1).sp - Config.startSp := by decide

/-- A range above the old top, one below it, and one that straddles it. -/
theorem witness_AllocDallocRoundTrip : (after 1).SpInRange ∧ TwoInts (int 2) (int 2) ∧
    RangeAccepted (int 2).val.toInt (int 2).val.toInt ∧ (after 1).sp + (int 2).val.toInt ≤ Config.stackCap - 1 ∧
    (after 1).sp + 1 ≤ (int 2).val.toInt ∧
    RangeAccepted (int 0).val.toInt (int 2).val.toInt ∧ (int 0).val.toInt + (int 2).val.toInt - 1 ≤ (after 1).sp ∧
    RangeAccepted (int 1).val.toInt (int 2).val.toInt := by decide

theorem witness_AllocCopiesASnapshotUnlessStraddling : (after 1).SpInRange ∧ TwoInts (int 2) (int 2) ∧
    RangeAccepted (int 2).val.toInt (int 2).val.toInt ∧ (after 1).sp + (int 2).val.toInt ≤ Config.stackCap - 1 ∧
    (after 1).sp < (int 2).val.toInt ∧ (int 0).val.toInt + (int 2).val.toInt - 1 ≤ (after 1).sp ∧
    RangeAccepted (int 1).val.toInt (int 2).val.toInt ∧ (int 1).val.toInt = (after 1).sp ∧ 2 ≤ (int 2).val.toInt := by decide

/-- RD's clauses: an operand, a full stack, a detached channel, and each of the three answers. -/
theorem witness_RdPushesTheHostsValue : ¬ NoOperands (int 1) none1 ∧ NoOperands none1 none1 ∧ (rdState 8191 []).SpInRange ∧
    (rdState 8191 []).sp = Config.stackCap - 1 ∧ (rdState 8190 []).SpInRange ∧ (rdState 8190 []).sp < Config.stackCap - 1 ∧
    State.ioAttached { rdState 8190 [] with ioAttached := false } = false ∧ (rdState 8190 []).ioAttached = true ∧
    (rdState 8190 [.value 42]).readAnswers = .value 42 :: [] ∧ (rdState 8190 [.error]).readAnswers = .error :: [] ∧
    (rdState 8190 []).readAnswers = [] := by decide

theorem witness_PrnSendsTheTop : ¬ NoOperands (int 1) none1 ∧ NoOperands none1 none1 ∧ (after (-1)).SpInRange ∧
    (after (-1)).sp < Config.startSp + 1 ∧ (prnState []).SpInRange ∧ Config.startSp + 1 ≤ (prnState []).sp ∧
    State.ioAttached { prnState [] with ioAttached := false } = false ∧ (prnState []).ioAttached = true ∧
    (prnState [.ok]).writeAnswers = .ok :: [] ∧ (prnState [.error]).writeAnswers = .error :: [] ∧
    (prnState []).writeAnswers = [] := by decide

/-- RD and PRN on a detached channel. -/
theorem witness_DetachedChannelIssuesNothing :
    (∃ t, step { rdState (-1) [] with ioAttached := false } = .next t) ∧ (rdState (-1) []).inFlight = none ∧
    NoOperands none1 none1 ∧ (after 8190).SpInRange ∧ (after 8190).sp < Config.stackCap - 1 ∧
    (after 0).SpInRange ∧ Config.startSp + 1 ≤ (after 0).sp :=
  ⟨⟨_, rfl⟩, by decide, by decide, by decide, by decide, by decide, by decide⟩

theorem witness_OnlyRdAndPrnUseTheChannel : ∃ t, step (prnState [.ok]) = .next t ∧ t.ioTrace ≠ (prnState [.ok]).ioTrace :=
  ⟨_, rfl, nofun⟩

theorem witness_WaitingChangesNothing : waitingRd.run = .running ∧ waitingRd.inFlight = some .rdReq ∧
    waitingRd.readAnswers = [] ∧ waitingPrn.run = .running ∧ waitingPrn.inFlight = some (.wrReq 8) ∧
    waitingPrn.writeAnswers = [] := by decide

theorem witness_LateAnswerActsAsReadyAnswer : (after 0).SpInRange ∧ (after 0).run = .running ∧
    (after 0).ioAttached = true ∧ NoOperands none1 none1 ∧ (after 0).readAnswers = [] ∧
    (after 0).sp < Config.stackCap - 1 ∧ (after 0).writeAnswers = [] ∧ Config.startSp + 1 ≤ (after 0).sp := by decide

end Sys2Proof.Tests
end

/-! PROOFS. The statements of spec/00_scope.md: the arithmetic of R11, the unwritten cells of R10, and that the model
never stops where the invariant holds (R13). -/

namespace Sys2Proof.Machine

/-! ### The arithmetic of R11 -/

theorem wrap64_toInt (x : Int) : (wrap64 x).toInt = x.bmod (2 ^ 64) := BitVec.toInt_ofInt x

/-- Settles O33: both words are the balanced remainder of what they stand for, and balanced remainders are equal
exactly where the numbers are congruent. -/
theorem wrapIsTheCongruentWord : Obligations.WrapIsTheCongruentWord := by
  intro x v
  calc v = wrap64 x
      ↔ v.toInt = (wrap64 x).toInt := BitVec.toInt_inj.symm
    _ ↔ v.toInt.bmod (2 ^ 64) = x.bmod (2 ^ 64) := by rw [wrap64_toInt, BitVec.toInt_bmod_cancel]
    _ ↔ (v.toInt - x).bmod (2 ^ 64) = 0 := Int.bmod_eq_bmod_iff_bmod_sub_eq_zero
    _ ↔ (2 : Int) ^ 64 ∣ v.toInt - x := Int.dvd_iff_bmod_eq_zero.symm

theorem truncDiv_natAbs (a b : Int) : (truncDiv a b).natAbs = a.natAbs / b.natAbs := Int.natAbs_tdiv a b

theorem truncDiv_neg_left (a b : Int) : truncDiv (-a) b = -truncDiv a b := Int.neg_tdiv a b

/-- The quotient of operands of like sign is not negative. -/
theorem truncDiv_nonneg {a b : Int} (h : 0 ≤ a * b) : 0 ≤ truncDiv a b := by
  rcases mul_nonneg_iff.1 h with ⟨ha, hb⟩ | ⟨ha, hb⟩
  · exact Int.tdiv_nonneg ha hb
  · exact Int.tdiv_nonneg_of_nonpos_of_nonpos ha hb

/-- The quotient of operands of unlike sign is not positive: negating the dividend makes the signs alike. -/
theorem truncDiv_nonpos {a b : Int} (h : a * b ≤ 0) : truncDiv a b ≤ 0 := by
  have hneg : 0 ≤ truncDiv (-a) b := truncDiv_nonneg (by rwa [neg_mul, neg_nonneg])
  rwa [truncDiv_neg_left, neg_nonneg] at hneg

/-- Settles O34, for every divisor: where it is 0 the quotient is 0 on both sides. -/
theorem divisionTruncatesTowardZero : Obligations.DivisionTruncatesTowardZero :=
  fun a b _ => ⟨truncDiv_natAbs a b, truncDiv_nonneg, truncDiv_nonpos⟩

/-! ### The unwritten cells of R10 -/

/-- LDV of a cell that exists, with room on the stack, pushes the cell (41_load_store.md R111). -/
theorem execLdv_pushes {o1 o2 : Slot} {s : State} (hs : s.SpInRange) (ho : OneInt o1 o2)
    (ha : Config.inArray o1.val.toInt) (hroom : s.sp < Config.stackCap - 1) :
    execLdv o1 o2 s = .next (pushed (s.cell o1.val.toInt) s) := by
  obtain ⟨hlow, -⟩ := spInRange_iff.1 hs
  have hfree : s.sp + 1 ≤ 8191 := hroom
  rw [execLdv, withOperands_int ho.1 ho.2, checkAddress_pos ha, checkRoom_pos hfree, memRead_in ha,
    push_room hlow hfree]

/-- Settles O32: the cell that LDV reads is unlisted, so the pushed word is its free value. -/
theorem unwrittenCellsReadInitStack : Obligations.UnwrittenCellsReadInitStack := by
  intro o1 o2 s hs ho ha hroom hfree
  refine ⟨_, execLdv_pushes hs ho ha hroom, ?_⟩
  rw [pushed_cell_top, cell_unwritten hfree]

/-! ### Which operations answer a next state

For each shared operation, from what must hold where its check passes: a failed check is fault entry, which is a next
state as well. -/

/-- The model does not stop: it answers a next state. -/
def Answers (r : Out) : Prop := ∃ t, r = .next t

theorem Answers.next (s : State) : Answers (.next s) := ⟨s, rfl⟩

theorem Answers.check {c : Prop} [Decidable c] {f : FaultCode} {s : State} {k : Out} (h : c → Answers k) :
    Answers (check c f s k) := by
  by_cases hc : c
  · rw [check_pos hc]; exact h hc
  · rw [check_neg hc]; exact .next _

theorem Answers.checkPresent {k : Int} {s : State} {r : Out} (h : k - 1 ≤ s.sp → Answers r) :
    Answers (checkPresent k s r) := .check fun hc => h (by rw [startSp_eq] at hc; omega)

theorem Answers.checkRoom {k : Int} {s : State} {r : Out} (h : s.sp + k ≤ 8191 → Answers r) :
    Answers (checkRoom k s r) := .check h

theorem Answers.checkAddress {a : Int} {s : State} {r : Out} (h : Config.inArray a → Answers r) :
    Answers (checkAddress a s r) := .check h

theorem Answers.checkRange {m n : Int} {s : State} {r : Out} (h : RangeOk m n → Answers r) :
    Answers (checkRange m n s r) := .check fun hn => .check fun hm => h ⟨hn, hm⟩

theorem Answers.withOperands {k1 k2 : OperandKind} {o1 o2 : Slot} {s : State} {r : Word → Word → Out}
    (h : Answers (r o1.val o2.val)) : Answers (withOperands k1 k2 o1 o2 s r) := .check fun _ => .check fun _ => h

theorem Answers.memRead {a : Int} {s : State} {k : Word → Out} (ha : Config.inArray a) (h : Answers (k (s.cell a))) :
    Answers (memRead a s k) := by rwa [memRead_in ha]

theorem Answers.memWrite {a : Int} {v : Word} {s : State} {k : State → Out} (ha : Config.inArray a)
    (h : Answers (k (s.setCell a v))) : Answers (memWrite a v s k) := by rwa [memWrite_in ha]

theorem Answers.push {v : Word} {s : State} {k : State → Out} (hs : s.SpInRange) (hroom : s.sp + 1 ≤ 8191)
    (h : Answers (k (pushed v s))) : Answers (push v s k) := by rwa [push_room (spInRange_iff.1 hs).1 hroom]

/-- Where a value is on the stack, the top is a cell. -/
theorem top_inArray {s : State} (hs : s.SpInRange) (h : 0 ≤ s.sp) : Config.inArray s.sp := ⟨h, hs.2⟩

theorem binaryOp_answers {f : Word → Word → Word} {s : State} (hs : s.SpInRange) : Answers (binaryOp f s) := by
  by_cases h : s.sp < 1
  · exact ⟨_, binaryOp_short h⟩
  · exact ⟨_, binaryOp_result (not_lt.1 h) hs.2⟩

theorem unaryOp_answers {f : Word → Word} {s : State} (hs : s.SpInRange) : Answers (unaryOp f s) := by
  by_cases h : s.sp < 0
  · exact ⟨_, unaryOp_short h⟩
  · exact ⟨_, unaryOp_result (not_lt.1 h) hs.2⟩

/-! ### The I/O channel -/

theorem completeRead_answers (r : ReadAnswer) {s : State} (hs : s.SpInRange) (hroom : s.sp + 1 ≤ 8191) :
    Answers (completeRead r s) := by
  cases r with
  | error => exact .next _
  | value v => exact ⟨_, completeRead_value hs.1 hroom⟩

theorem completeWrite_answers (r : WriteAnswer) (s : State) : Answers (completeWrite r s) := by
  cases r <;> exact .next _

theorem resumeRead_answers {s : State} (hs : s.SpInRange) (hroom : s.sp + 1 ≤ 8191) : Answers (resumeRead s) := by
  unfold resumeRead
  split
  · exact .next _
  · exact completeRead_answers _ hs hroom

theorem resumeWrite_answers (s : State) : Answers (resumeWrite s) := by
  unfold resumeWrite
  split
  · exact .next _
  · exact completeWrite_answers _ _

/-! ### The instructions -/

theorem execJmp_answers (o1 o2 : Slot) (s : State) : Answers (execJmp o1 o2 s) := .withOperands (.next _)

section
variable {s : State} (o1 o2 : Slot) (hs : s.SpInRange)
include hs

/-- The shape of every instruction that is a binary operator. -/
theorem binaryInstr_answers {f : Word → Word → Word} :
    Answers (withOperands .none .none o1 o2 s fun _ _ => binaryOp f s) := .withOperands (binaryOp_answers hs)

/-- The shape of INV and NEG. -/
theorem unaryInstr_answers {f : Word → Word} :
    Answers (withOperands .none .none o1 o2 s fun _ _ => unaryOp f s) := .withOperands (unaryOp_answers hs)

theorem execLdc_answers : Answers (execLdc o1 o2 s) :=
  .withOperands <| .checkRoom fun hroom => .push hs hroom (.next _)

theorem execLdv_answers : Answers (execLdv o1 o2 s) :=
  .withOperands <| .checkAddress fun ha => .checkRoom fun hroom => .memRead ha <| .push hs hroom (.next _)

theorem execStr_answers : Answers (execStr o1 o2 s) :=
  .withOperands <| .checkAddress fun ha => .checkPresent fun hp =>
    .memRead (top_inArray hs hp) <| .memWrite ha (.next _)

theorem execDivi_answers : Answers (execDivi o1 o2 s) := by
  refine .withOperands <| .checkPresent fun hp => ?_
  have htop : Config.inArray s.sp := top_inArray hs (by omega)
  have hsecond : Config.inArray (s.sp - 1) := ⟨by omega, by have := hs.2; omega⟩
  exact .memRead hsecond <| .memRead htop <| .check fun _ => .memWrite hsecond (.next _)

theorem execJmpf_answers : Answers (execJmpf o1 o2 s) :=
  .withOperands <| .checkPresent fun hp => .memRead (top_inArray hs hp) (.next _)

theorem execCall_answers : Answers (execCall o1 o2 s) :=
  .withOperands <| .checkRoom fun hroom => .push hs hroom (.next _)

theorem execRet_answers : Answers (execRet o1 o2 s) :=
  .withOperands <| .checkPresent fun hp => .memRead (top_inArray hs hp) <| .check fun _ => .next _

theorem execRd_answers : Answers (execRd o1 o2 s) :=
  .withOperands <| .checkRoom fun hroom => .check fun _ => resumeRead_answers hs hroom

theorem execPrn_answers : Answers (execPrn o1 o2 s) :=
  .withOperands <| .checkPresent fun hp => .check fun _ =>
    .memRead (top_inArray hs hp) (resumeWrite_answers _)

/-- An ALLOC of no cells reads none; another one has its source range and its block inside the array. -/
theorem execAlloc_answers : Answers (execAlloc o1 o2 s) := by
  refine .withOperands <| .checkRange fun ⟨hn, hm⟩ => .checkRoom fun hroom => ?_
  rcases hm with hzero | ⟨hlow, hhigh⟩
  · rw [hzero]; exact .next s
  · obtain ⟨t, ht, -⟩ := allocLoop_done o2.val.toInt.toNat o1.val.toInt s hs.1 (by omega) hlow (by omega)
    exact ⟨t, ht⟩

theorem execDalloc_answers : Answers (execDalloc o1 o2 s) := by
  refine .withOperands <| .checkRange fun ⟨hn, hm⟩ => .checkPresent fun hp => ?_
  rcases hm with hzero | ⟨hlow, hhigh⟩
  · rw [hzero]; exact .next s
  · obtain ⟨t, ht, -⟩ := dallocLoop_done o2.val.toInt.toNat o1.val.toInt s (by omega) hs.2 hlow (by omega)
    exact ⟨t, ht⟩

end

/-- No instruction stops the model while `sp` is in its range (10_state.md R27). -/
theorem exec_answers (i : Instr) {s : State} (hs : s.SpInRange) : Answers (exec i s) := by
  cases i with
  | start o1 o2 => exact .next _
  | labelMarker o1 o2 => exact .next _
  | hlt o1 o2 => exact .next _
  | jmp o1 o2 => exact execJmp_answers o1 o2 s
  | ldc o1 o2 => exact execLdc_answers o1 o2 hs
  | ldv o1 o2 => exact execLdv_answers o1 o2 hs
  | str o1 o2 => exact execStr_answers o1 o2 hs
  | divi o1 o2 => exact execDivi_answers o1 o2 hs
  | jmpf o1 o2 => exact execJmpf_answers o1 o2 hs
  | call o1 o2 => exact execCall_answers o1 o2 hs
  | ret o1 o2 => exact execRet_answers o1 o2 hs
  | alloc o1 o2 => exact execAlloc_answers o1 o2 hs
  | dalloc o1 o2 => exact execDalloc_answers o1 o2 hs
  | rd o1 o2 => exact execRd_answers o1 o2 hs
  | prn o1 o2 => exact execPrn_answers o1 o2 hs
  | inv o1 o2 => exact unaryInstr_answers o1 o2 hs
  | neg o1 o2 => exact unaryInstr_answers o1 o2 hs
  | add o1 o2 => exact binaryInstr_answers o1 o2 hs
  | sub o1 o2 => exact binaryInstr_answers o1 o2 hs
  | mult o1 o2 => exact binaryInstr_answers o1 o2 hs
  | and o1 o2 => exact binaryInstr_answers o1 o2 hs
  | or o1 o2 => exact binaryInstr_answers o1 o2 hs
  | cme o1 o2 => exact binaryInstr_answers o1 o2 hs
  | cma o1 o2 => exact binaryInstr_answers o1 o2 hs
  | ceq o1 o2 => exact binaryInstr_answers o1 o2 hs
  | cdif o1 o2 => exact binaryInstr_answers o1 o2 hs
  | cmeq o1 o2 => exact binaryInstr_answers o1 o2 hs
  | cmaq o1 o2 => exact binaryInstr_answers o1 o2 hs

/-! ### The step and the host actions -/

/-- A cycle: `ip` is at the end of the image or at a word of it (10_state.md R21). -/
theorem cycle_answers {s : State} (hs : s.SpInRange) (hip : s.ip ≤ s.len) : Answers (cycle exec s) := by
  rcases hip.eq_or_lt with hend | hlt
  · rw [cycle_end hend]; exact .next _
  · have hw : s.prog[s.ip]? = some s.prog[s.ip] := List.getElem?_eq_getElem hlt
    rw [cycle_at hw]
    split
    · exact .next _
    · exact exec_answers _ hs

/-- The transaction in flight goes on: RD still has the room it checked for (47_io.md R171). -/
theorem resumeIo_answers {s : State} {q : IoRequest} (hinv : s.Inv) (hq : s.inFlight = some q) :
    Answers (resumeIo q s) := by
  cases q with
  | rdReq => exact resumeRead_answers hinv.sp_range (hinv.read_has_room hq)
  | wrReq v => exact resumeWrite_answers s

theorem step_answers {s : State} (hinv : s.Inv) : Answers (step s) := by
  by_cases hr : s.run = .running
  · cases hq : s.inFlight with
    | some q => rw [step_inFlight hr hq]; exact resumeIo_answers hinv hq
    | none => rw [step_cycle hr hq]; exact cycle_answers hinv.sp_range hinv.ip_le_len
  · rw [step_not_running hr]; exact .next _

theorem hostReadResponse_answers {s : State} (hinv : s.Inv) (run : Nat) (r : ReadAnswer) :
    Answers (hostReadResponse run r s) := by
  unfold hostReadResponse
  split
  · next h => exact completeRead_answers r hinv.sp_range (hinv.read_has_room h.2)
  · exact .next _

theorem hostWriteResponse_answers (run : Nat) (r : WriteAnswer) (s : State) : Answers (hostWriteResponse run r s) := by
  unfold hostWriteResponse
  split
  · split
    · exact completeWrite_answers r s
    · exact .next _
  · exact .next _

theorem hostAct_answers {s : State} (hinv : s.Inv) (action : HostAction) : Answers (hostAct action s) := by
  cases action with
  | reset => exact .next _
  | launch recs attached => exact .next _
  | readResponse run r => exact hostReadResponse_answers hinv run r
  | writeResponse run r => exact hostWriteResponse_answers run r s

/-- Settles O15: `sp` in its range keeps every access inside the array, and `ip` in its range the fetch inside the
image. -/
theorem invariantStatesNeverStop : Obligations.InvariantStatesNeverStop :=
  fun _ hinv => ⟨step_answers hinv, hostAct_answers hinv⟩

end Sys2Proof.Machine

/-! PROOFS. The statements of spec/10_state.md: the invariant of R21, R27, R33 to R39, what a step leaves unchanged
(R36, R37), the codes and the layout of STATUS (R31, R32), the fetch (R22), the wait (R38), and the stack array read
after a store (R26). -/

namespace Sys2Proof.Machine

/-! ### What keeps the invariant

One lemma per update of the state, from the invariant before it. -/

section
variable {s : State} (hinv : s.Inv)
include hinv

theorem State.Inv.haltCause_running (hr : s.run = .running) : s.haltCause = false :=
  Bool.eq_false_iff.2 fun hc => nomatch (hinv.haltCause_halted hc).symm.trans hr

theorem State.Inv.running_of_inFlight {q : IoRequest} (hq : s.inFlight = some q) : s.run = .running :=
  (hinv.inFlight_running (by simp [hq])).1

/-- A running state in which only the stack array, `sp` and `ip` move, inside their ranges. -/
theorem State.Inv.move {m : Memory} {x : Int} {j : Nat} (hr : s.run = .running) (hq : s.inFlight = none)
    (hsp : Config.startSp ≤ x ∧ x ≤ Config.stackCap - 1) (hwf : m.wf) (hip : j ≤ s.len) :
    ({ s with stack := m, sp := x, ip := j } : State).Inv :=
  { hinv with
    sp_range := hsp
    ip_le_len := hip
    stack_wf := hwf
    idle_empty := fun hi => nomatch hr.symm.trans hi
    inFlight_running := fun h => absurd hq h
    read_has_room := fun h => nomatch hq.symm.trans h
    write_has_value := fun _ h => nomatch hq.symm.trans h }

/-- The fetch increment below the end of the image (R22). -/
theorem State.Inv.advance (hr : s.run = .running) (hq : s.inFlight = none) (hlt : s.ip < s.len) : s.advance.Inv :=
  hinv.move hr hq hinv.sp_range hinv.stack_wf hlt

theorem State.Inv.pushed (v : Word) (hr : s.run = .running) (hq : s.inFlight = none) (hroom : s.sp + 1 ≤ 8191) :
    (pushed v s).Inv := by
  obtain ⟨hlow, -⟩ := spInRange_iff.1 hinv.sp_range
  have hsp : Config.startSp ≤ s.sp + 1 ∧ s.sp + 1 ≤ Config.stackCap - 1 := spInRange_iff.2 ⟨by omega, hroom⟩
  have hcell : Config.inArray (s.sp + 1) := inArray_iff.2 ⟨by omega, hroom⟩
  exact hinv.move hr hq hsp (write_wf v hcell hinv.stack_wf) hinv.ip_le_len

/-- Fault entry in a running state with nothing in flight (60_exceptions.md R202). -/
theorem State.Inv.faultEntry {f : FaultCode} (hr : s.run = .running) (hq : s.inFlight = none) (hf : f ≠ .noFault) :
    (faultEntry f s).Inv :=
  { hinv with
    haltCause_halted := fun hc => nomatch (hinv.haltCause_running hr).symm.trans hc
    faultCode_faulted := iff_of_true hf rfl
    faultIp_faulted := fun h => absurd rfl h
    idle_empty := fun h => nomatch h
    image_nonempty := fun h => nomatch h
    inFlight_running := fun h => absurd hq h }

/-- The end of a run, by HLT or at the end of the image. -/
theorem State.Inv.halt (cause : Bool) (hr : s.run = .running) (hq : s.inFlight = none) : (s.halt cause).Inv := by
  have hcode : s.faultCode = .noFault := by simpa [hr] using hinv.faultCode_faulted
  exact { hinv with
    haltCause_halted := fun _ => rfl
    faultCode_faulted := iff_of_false (fun h => h hcode) (fun h => nomatch h)
    faultIp_faulted := fun _ => hinv.faultIp_faulted (by simp [hr])
    idle_empty := fun h => nomatch h
    image_nonempty := fun _ => hinv.image_nonempty (.inl hr)
    inFlight_running := fun h => absurd hq h }

/-- A request is sent, after the checks of its instruction (47_io.md R171, R172). -/
theorem State.Inv.issue {q : IoRequest} (e : IoEvent) (hr : s.run = .running) (ha : s.ioAttached = true)
    (hip : 1 ≤ s.ip) (hread : q = .rdReq → s.sp + 1 ≤ Config.stackCap - 1)
    (hwrite : ∀ v, q = .wrReq v → Config.startSp + 1 ≤ s.sp ∧ v = s.cell s.sp) : (issue q e s).Inv :=
  { hinv with
    inFlight_running := fun _ => ⟨hr, ha, hip⟩
    read_has_room := fun h => hread (Option.some.inj h)
    write_has_value := fun v h => hwrite v (Option.some.inj h) }

theorem State.Inv.answered (e : IoEvent) : (answered e s).Inv :=
  { hinv with
    inFlight_running := fun h => absurd rfl h
    read_has_room := fun h => nomatch h
    write_has_value := fun _ h => nomatch h }

/-- The invariant does not speak of the answers to come. -/
theorem State.Inv.withAnswers (rs : List ReadAnswer) (ws : List WriteAnswer) :
    ({ s with readAnswers := rs, writeAnswers := ws } : State).Inv := { hinv with }

/-! ### The I/O channel keeps the invariant -/

theorem State.Inv.completeRead {r : ReadAnswer} {t : State} (hq : s.inFlight = some .rdReq)
    (h : completeRead r s = .next t) : t.Inv := by
  have hr := hinv.running_of_inFlight hq
  rcases completeRead_next h with ⟨-, rfl⟩ | ⟨v, -, -, hroom, rfl⟩
  · exact (hinv.answered _).faultEntry hr rfl (by simp)
  · exact (hinv.answered _).pushed v hr rfl hroom

theorem State.Inv.completeWrite {r : WriteAnswer} {v : Word} {t : State} (hq : s.inFlight = some (.wrReq v))
    (h : completeWrite r s = .next t) : t.Inv := by
  have hr := hinv.running_of_inFlight hq
  rcases completeWrite_next h with ⟨-, rfl⟩ | ⟨-, rfl⟩
  · exact (hinv.answered _).faultEntry hr rfl (by simp)
  · have hsp : Config.startSp ≤ s.sp - 1 ∧ s.sp - 1 ≤ Config.stackCap - 1 := by
      have hvalue := (hinv.write_has_value v hq).1
      have hhigh := hinv.sp_range.2
      omega
    exact (hinv.answered _).move hr rfl hsp hinv.stack_wf hinv.ip_le_len

theorem State.Inv.resumeRead {t : State} (hq : s.inFlight = some .rdReq) (h : resumeRead s = .next t) : t.Inv := by
  rcases resumeRead_next h with ⟨-, rfl⟩ | ⟨r, rest, -, h⟩
  · exact hinv
  · exact (hinv.withAnswers rest s.writeAnswers).completeRead hq h

theorem State.Inv.resumeWrite {v : Word} {t : State} (hq : s.inFlight = some (.wrReq v))
    (h : resumeWrite s = .next t) : t.Inv := by
  rcases resumeWrite_next h with ⟨-, rfl⟩ | ⟨r, rest, -, h⟩
  · exact hinv
  · exact (hinv.withAnswers s.readAnswers rest).completeWrite hq h

theorem State.Inv.resumeIo {q : IoRequest} {t : State} (hq : s.inFlight = some q) (h : resumeIo q s = .next t) :
    t.Inv := by
  cases q with
  | rdReq => exact hinv.resumeRead hq h
  | wrReq v => exact hinv.resumeWrite hq h

/-! ### Instructions and steps keep the invariant -/

/-- Every effect an instruction can have, in a running state after its fetch. -/
theorem State.Inv.effect {i : Instr} {t : State} (hr : s.run = .running) (hq : s.inFlight = none) (hip : 1 ≤ s.ip)
    (h : Effect i s t) : t.Inv := by
  cases h with
  | fault f code eq => exact eq ▸ hinv.faultEntry hr hq code
  | plain only sp wf ip =>
    have hle : t.ip ≤ s.len := ip.elim (fun h => h ▸ hinv.ip_le_len) id
    rw [only]
    exact hinv.move hr hq (sp hinv.sp_range) (wf hinv.stack_wf) hle
  | halt o1 o2 instr eq => exact eq ▸ hinv.halt false hr hq
  | read o1 o2 instr room attached eq =>
    have hissued := hinv.issue (q := .rdReq) .rdReq hr attached hip (fun _ => room) (fun _ h => nomatch h)
    exact hissued.resumeRead rfl eq
  | write o1 o2 instr present attached eq =>
    have hissued := hinv.issue (q := .wrReq (s.cell s.sp)) (.wrReq (s.cell s.sp)) hr attached hip (fun h => nomatch h)
      (fun v h => ⟨present, (IoRequest.wrReq.inj h).symm⟩)
    exact hissued.resumeWrite rfl eq

theorem State.Inv.step {t : State} (h : step s = .next t) : t.Inv := by
  rcases step_cases h with ⟨-, rfl⟩ | ⟨q, -, hq, h⟩ | ⟨hr, hq, -, rfl⟩ | ⟨w, hr, hq, hw, -, rfl⟩ |
    ⟨w, i, hr, hq, hw, -, h⟩
  · exact hinv
  · exact hinv.resumeIo hq h
  · exact hinv.halt true hr hq
  · have hfetched := hinv.advance hr hq (List.getElem?_eq_some_iff.1 hw).1
    exact hfetched.faultEntry hr hq (by simp)
  · have hfetched := hinv.advance hr hq (List.getElem?_eq_some_iff.1 hw).1
    exact hfetched.effect hr hq (Nat.le_add_left 1 s.ip) (exec_effect h)

end

/-- Settles O13, by what a step can do: end the run, fault, execute, or go on with the transaction in flight. -/
theorem stepKeepsInvariant : Obligations.StepKeepsInvariant := fun _ _ hinv h => hinv.step h

/-- Settles O12: after reset there is no image, no status and nothing in flight. -/
theorem resetStateSatisfiesInvariant : Obligations.ResetStateSatisfiesInvariant where
  sp_range := by decide
  ip_le_len := le_rfl
  stack_wf := ⟨.nil, fun _ h => nomatch h⟩
  haltCause_halted h := nomatch h
  faultCode_faulted := by decide
  faultIp_faulted _ := rfl
  idle_empty _ := ⟨rfl, rfl, rfl, rfl⟩
  image_nonempty h := nomatch h
  labels_in_image _ h := nomatch h
  inFlight_running h := absurd rfl h
  read_has_room h := nomatch h
  write_has_value _ h := nomatch h

/-! ### What no step writes (R36, R37) -/

/-- What a launch and the resets before it have fixed: the image, the label map, IO_ATTACHED and the model's counter of
resets. -/
def State.fixedByLaunch (s : State) : List Diw × List (String × Nat) × Bool × Nat :=
  (s.prog, s.labels, s.ioAttached, s.resetCount)

section
variable {s t : State}

theorem resumeRead_fixedByLaunch (h : resumeRead s = .next t) : t.fixedByLaunch = s.fixedByLaunch := by
  rcases resumeRead_next h with ⟨-, rfl⟩ | ⟨r, rest, -, h⟩
  · rfl
  · rcases completeRead_next h with ⟨-, rfl⟩ | ⟨v, -, -, -, rfl⟩ <;> rfl

theorem resumeWrite_fixedByLaunch (h : resumeWrite s = .next t) : t.fixedByLaunch = s.fixedByLaunch := by
  rcases resumeWrite_next h with ⟨-, rfl⟩ | ⟨r, rest, -, h⟩
  · rfl
  · rcases completeWrite_next h with ⟨-, rfl⟩ | ⟨-, rfl⟩ <;> rfl

theorem resumeIo_fixedByLaunch {q : IoRequest} (h : resumeIo q s = .next t) : t.fixedByLaunch = s.fixedByLaunch := by
  cases q with
  | rdReq => exact resumeRead_fixedByLaunch h
  | wrReq v => exact resumeWrite_fixedByLaunch h

theorem Effect.fixedByLaunch {i : Instr} (h : Effect i s t) : t.fixedByLaunch = s.fixedByLaunch := by
  cases h with
  | fault f code eq => rw [eq]; rfl
  | plain only sp wf ip => rw [only]; rfl
  | halt o1 o2 instr eq => rw [eq]; rfl
  | read o1 o2 instr room attached eq => exact (resumeRead_fixedByLaunch eq).trans rfl
  | write o1 o2 instr present attached eq => exact (resumeWrite_fixedByLaunch eq).trans rfl

theorem step_fixedByLaunch (h : step s = .next t) : t.fixedByLaunch = s.fixedByLaunch := by
  rcases step_cases h with ⟨-, rfl⟩ | ⟨q, -, -, h⟩ | ⟨-, -, -, rfl⟩ | ⟨w, -, -, -, -, rfl⟩ | ⟨w, i, -, -, -, -, h⟩
  · rfl
  · exact resumeIo_fixedByLaunch h
  · rfl
  · rfl
  · exact (exec_effect h).fixedByLaunch

end

/-- Settles O16: every way a step can go keeps what the launch has fixed. -/
theorem stepKeepsImageAndLabels : Obligations.StepKeepsImageAndLabels := by
  intro s t h
  obtain ⟨hprog, hlabels, hattached, hcount⟩ : t.prog = s.prog ∧ t.labels = s.labels ∧
      t.ioAttached = s.ioAttached ∧ t.resetCount = s.resetCount := by
    simpa [State.fixedByLaunch] using step_fixedByLaunch h
  exact ⟨hprog, congrArg List.length hprog, hlabels, hattached, hcount⟩

/-! ### Read after write on the stack array (R26) -/

/-- STR into a cell that exists, with a value on the stack, pops it into the cell (41_load_store.md R112). -/
theorem execStr_stores {o1 o2 : Slot} {s : State} (hs : s.SpInRange) (ho : OneInt o1 o2)
    (ha : Config.inArray o1.val.toInt) (hvalue : 0 ≤ s.sp) :
    execStr o1 o2 s = .next ((s.setCell o1.val.toInt (s.cell s.sp)).setSp (s.sp - 1)) := by
  rw [execStr, withOperands_int ho.1 ho.2, checkAddress_pos ha, checkPresent_pos (by omega),
    memRead_in (top_inArray hs hvalue), memWrite_in ha]

/-- Settles O31: LDV pushes back, into the place STR popped it from, the value that STR stored. -/
theorem storeThenLoadReturnsTheValue : Obligations.StoreThenLoadReturnsTheValue := by
  intro o1 o2 s hs ho ha hvalue
  set n := o1.val.toInt
  set t := (s.setCell n (s.cell s.sp)).setSp (s.sp - 1)
  obtain ⟨hlow, hhigh⟩ := spInRange_iff.1 hs
  have hpos : 0 ≤ s.sp := hvalue
  have hsp : t.sp + 1 = s.sp := sub_add_cancel s.sp 1
  have hstored : t.cell n = s.cell s.sp := cell_setCell_same s n _
  have hload : execLdv o1 o2 t = .next (pushed (t.cell n) t) :=
    execLdv_pushes (spInRange_iff.2 ⟨by omega, by omega⟩) ho ha (by simp only [Config.stackCap]; omega)
  have htop : (pushed (t.cell n) t).cell s.sp = s.cell s.sp := by rw [← hsp, pushed_cell_top, hstored, hsp]
  refine ⟨t, _, execStr_stores hs ho ha hpos, hload, hsp, by rwa [pushed_sp, hsp], ?_⟩
  by_cases hn : n = s.sp
  · rwa [hn] at htop ⊢
  · rw [pushed_cell_other _ (by omega) ha.1 (hsp ▸ hn), hstored]

/-! ### STATUS, the fetch and the wait -/

/-- Bit by bit, the layout of R32. -/
theorem status_bit (s : State) (i : Nat) : s.status.getLsbD i =
    if i < 2 then s.run.code.getLsbD i else if i = 2 then s.haltCause else if i < 4 then false
    else s.faultCode.code.getLsbD (i - 4) := by
  change ((((0#8 ++ s.faultCode.code) ++ 0#1) ++ BitVec.ofBool s.haltCause) ++ s.run.code :
    BitVec (8 + 4 + 1 + 1 + 2)).getLsbD i = _
  simp only [BitVec.getLsbD_append, BitVec.getLsbD_ofBool, BitVec.getLsbD_zero, Nat.sub_sub]
  rcases lt_trichotomy i 2 with hlow | rfl | hhigh
  · simp [hlow]
  · simp
  · have hrun : ¬ i < 2 := by omega
    have hcause : ¬ i - 2 < 1 := by omega
    by_cases hreserved : i < 4
    · simp [hrun, hcause, hreserved, hhigh.ne', show i - 3 < 1 by omega]
    · have hcode : s.faultCode.code.getLsbD (i - 4) = true → i - 4 < 4 := BitVec.lt_of_getLsbD
      simpa [hrun, hcause, hreserved, hhigh.ne', show ¬ i - 3 < 1 by omega] using hcode

/-- Settles O19, each field by its bits. -/
theorem statusWordLayout : Obligations.StatusWordLayout := by
  intro s
  refine ⟨?_, status_bit s 2, status_bit s 3, ?_, ?_⟩ <;> refine BitVec.eq_of_getLsbD_eq fun i hi => ?_
  · simp [status_bit, hi]
  · simp [status_bit, hi, show ¬ 4 + i < 2 by omega, show ¬ 4 + i = 2 by omega]
  · have hbeyond : s.faultCode.code.getLsbD (8 + i - 4) = false := BitVec.getLsbD_of_ge _ _ (by omega)
    simp [status_bit, hbeyond, show ¬ 8 + i < 2 by omega, show ¬ 8 + i = 2 by omega, show ¬ 8 + i < 4 by omega]

/-- Settles O20: each code is the one its definition gives. -/
theorem runAndFaultCodes : Obligations.RunAndFaultCodes := by
  unfold Obligations.RunAndFaultCodes
  decide

/-- Settles O22: the step is a cycle, and the cycle runs what it decodes. -/
theorem stepRunsDecodedInstruction : Obligations.StepRunsDecodedInstruction := by
  intro s w i hr hq hw hd
  rw [step_cycle hr hq, cycle_at hw, hd]
  rfl

theorem resumeRead_waiting {s : State} (h : s.readAnswers = []) : resumeRead s = .next s := by
  rw [resumeRead, h]

theorem resumeWrite_waiting {s : State} (h : s.writeAnswers = []) : resumeWrite s = .next s := by
  rw [resumeWrite, h]

/-- Settles O55: with a request in flight a step goes on with it, and without an answer that leaves the state. -/
theorem waitingChangesNothing : Obligations.WaitingChangesNothing := by
  intro s hr
  refine ⟨fun hq ha => ?_, fun v hq ha => ?_⟩
  · rw [step_inFlight hr hq]
    exact resumeRead_waiting ha
  · rw [step_inFlight hr hq]
    exact resumeWrite_waiting ha

end Sys2Proof.Machine

/-! PROOFS. The statements of spec/30_encoding.md: the DIW and its decoder (R70 to R76), the records and the integer
texts of the load (R64, R66, R69, R72), and the operand check behind R65. -/

namespace Sys2Proof

/-! ### A word of an opcode number and two slots (R70, R71) -/

/-- The DIW with `rsv` 0, the opcode number `opc` and the slots `o1` and `o2`: both the encoder and the load write it. -/
def slotsWord (opc : BitVec 8) (o1 o2 : Slot) : Diw := Diw.pack opc o1.tag.bits o2.tag.bits 0 o1.val o2.val

section
variable (opc : BitVec 8) (o1 o2 : Slot)

@[simp] theorem slotsWord_opc : (slotsWord opc o1 o2).opc = opc := pack_opc ..

@[simp] theorem slotsWord_rsv : (slotsWord opc o1 o2).rsv = 0 := pack_rsv ..

@[simp] theorem slotsWord_slot1 : (slotsWord opc o1 o2).slot1 = o1 := by
  simp [slotsWord, Diw.slot1, ofBits_bits]

@[simp] theorem slotsWord_slot2 : (slotsWord opc o1 o2).slot2 = o2 := by
  simp [slotsWord, Diw.slot2, ofBits_bits]

end

theorem encode_eq_slotsWord (i : Instr) : encode i = slotsWord i.opcode i.slot1 i.slot2 := rfl

/-- A DIW whose `rsv` is 0 is what its opcode number and its slots make. -/
theorem slotsWord_fields {w : Diw} (h : w.rsv = 0) : slotsWord w.opc w.slot1 w.slot2 = w := by
  simp only [slotsWord, Diw.slot1, Diw.slot2, bits_ofBits]
  rw [← h, pack_fields]

/-! ### The opcode map and the decoder (R73, R74) -/

/-- The opcode map at an instruction's own number, with its own slots, is the instruction. -/
theorem instrOfOpcode_opcode : ∀ i : Instr, Laws.OpcodeSelects.Statement i
  | .start o1 o2 => Laws.OpcodeSelects.start o1 o2
  | .ldc o1 o2 => Laws.OpcodeSelects.ldc o1 o2
  | .ldv o1 o2 => Laws.OpcodeSelects.ldv o1 o2
  | .add o1 o2 => Laws.OpcodeSelects.add o1 o2
  | .sub o1 o2 => Laws.OpcodeSelects.sub o1 o2
  | .mult o1 o2 => Laws.OpcodeSelects.mult o1 o2
  | .divi o1 o2 => Laws.OpcodeSelects.divi o1 o2
  | .inv o1 o2 => Laws.OpcodeSelects.inv o1 o2
  | .and o1 o2 => Laws.OpcodeSelects.and o1 o2
  | .or o1 o2 => Laws.OpcodeSelects.or o1 o2
  | .neg o1 o2 => Laws.OpcodeSelects.neg o1 o2
  | .cme o1 o2 => Laws.OpcodeSelects.cme o1 o2
  | .cma o1 o2 => Laws.OpcodeSelects.cma o1 o2
  | .ceq o1 o2 => Laws.OpcodeSelects.ceq o1 o2
  | .cdif o1 o2 => Laws.OpcodeSelects.cdif o1 o2
  | .cmeq o1 o2 => Laws.OpcodeSelects.cmeq o1 o2
  | .cmaq o1 o2 => Laws.OpcodeSelects.cmaq o1 o2
  | .jmp o1 o2 => Laws.OpcodeSelects.jmp o1 o2
  | .jmpf o1 o2 => Laws.OpcodeSelects.jmpf o1 o2
  | .alloc o1 o2 => Laws.OpcodeSelects.alloc o1 o2
  | .dalloc o1 o2 => Laws.OpcodeSelects.dalloc o1 o2
  | .rd o1 o2 => Laws.OpcodeSelects.rd o1 o2
  | .prn o1 o2 => Laws.OpcodeSelects.prn o1 o2
  | .str o1 o2 => Laws.OpcodeSelects.str o1 o2
  | .call o1 o2 => Laws.OpcodeSelects.call o1 o2
  | .ret o1 o2 => Laws.OpcodeSelects.ret o1 o2
  | .hlt o1 o2 => Laws.OpcodeSelects.hlt o1 o2
  | .labelMarker o1 o2 => Laws.OpcodeSelects.labelMarker o1 o2

/-- What the opcode map selects has the number it was selected by, and the slots it is given. -/
theorem instrOfOpcode_some {n : Nat} {mk : Slot → Slot → Instr} (h : instrOfOpcode n = some mk) (o1 o2 : Slot) :
    (mk o1 o2).opcode.toNat = n ∧ (mk o1 o2).slot1 = o1 ∧ (mk o1 o2).slot2 = o2 := by
  unfold instrOfOpcode at h
  split at h <;> cases h <;> exact ⟨rfl, rfl, rfl⟩

/-- The decoder reads an instruction exactly from the words with `rsv` 0, its opcode number and its slots. -/
theorem decode_eq_some_iff {w : Diw} {i : Instr} :
    decode w = some i ↔ w.rsv = 0 ∧ w.opc = i.opcode ∧ i.slot1 = w.slot1 ∧ i.slot2 = w.slot2 := by
  constructor
  · intro h
    obtain ⟨hrsv, h⟩ : w.rsv = 0 ∧ (instrOfOpcode w.opc.toNat).map (fun mk => mk w.slot1 w.slot2) = some i := by
      simpa [decode] using h
    obtain ⟨mk, hmk, rfl⟩ := Option.map_eq_some_iff.1 h
    obtain ⟨hopc, hslot1, hslot2⟩ := instrOfOpcode_some hmk w.slot1 w.slot2
    exact ⟨hrsv, (BitVec.eq_of_toNat_eq hopc).symm, hslot1, hslot2⟩
  · rintro ⟨hrsv, hopc, hslot1, hslot2⟩
    rw [decode, if_pos hrsv, hopc, ← hslot1, ← hslot2]
    exact instrOfOpcode_opcode i

theorem decode_slotsWord_iff {opc : BitVec 8} {o1 o2 : Slot} {i : Instr} :
    decode (slotsWord opc o1 o2) = some i ↔ opc = i.opcode ∧ i.slot1 = o1 ∧ i.slot2 = o2 := by
  simp [decode_eq_some_iff]

/-- Settles O1: the encoding has the instruction's number and slots in its fields. -/
theorem decodeOfEncodeIsIdentity : Obligations.DecodeOfEncodeIsIdentity :=
  fun _ => decode_slotsWord_iff.2 ⟨rfl, rfl, rfl⟩

/-- Settles O2: with `rsv` 0 the number and the slots fill the whole word. -/
theorem encodeOfDecodeIsIdentity : Obligations.EncodeOfDecodeIsIdentity := by
  intro w i h
  obtain ⟨hrsv, hopc, hslot1, hslot2⟩ := decode_eq_some_iff.1 h
  rw [encode_eq_slotsWord, ← hopc, hslot1, hslot2, slotsWord_fields hrsv]

/-- The masked header is a match of R73 exactly when `rsv` is 0 and `opc` is the match's low byte. -/
theorem header_mask_eq_iff (w : Diw) (opc : BitVec 8) :
    w.header &&& 0xF0FF#16 = BitVec.setWidth 16 opc ↔ w.rsv = 0 ∧ w.opc = opc := by
  have hmatch : BitVec.setWidth 16 opc = 0#4 ++ 0#4 ++ opc := BitVec.setWidth_eq_append (by decide)
  rw [header_mask, hmatch]
  constructor
  · intro h
    have hopc : w.opc = opc := by
      simpa only [BitVec.extractLsb'_append_eq_right] using congrArg (BitVec.extractLsb' 0 8) h
    rw [hopc, BitVec.append_left_inj, BitVec.append_left_inj] at h
    exact ⟨h, hopc⟩
  · rintro ⟨hrsv, hopc⟩
    rw [hrsv, hopc]
    rfl

/-- Settles O3: the masked match is the decoder's test of `rsv` and `opc`. -/
theorem headerSelectsByMaskedMatch : Obligations.HeaderSelectsByMaskedMatch := by
  intro w i
  rw [header_mask_eq_iff, and_assoc, decode_eq_some_iff]

/-- Settles O5: each word is the one the tables give. -/
theorem writtenOutWordsDecode : Obligations.WrittenOutWordsDecode := by
  unfold Obligations.WrittenOutWordsDecode
  decide

/-! ### The illegal headers (R75) -/

theorem opcode_lt (i : Instr) : i.opcode.toNat < 0x1C := by
  cases i <;> simp [Instr.opcode]

theorem decode_illegal {w : Diw} (h : 0x1C ≤ w.opc.toNat ∨ w.rsv ≠ 0) : decode w = none := by
  refine Option.eq_none_iff_forall_ne_some.2 fun i hi => ?_
  obtain ⟨hrsv, hopc, -, -⟩ := decode_eq_some_iff.1 hi
  rcases h with h | h
  · exact absurd (opcode_lt i) (by rw [← hopc]; omega)
  · exact h hrsv

end Sys2Proof

namespace Sys2Proof.Machine

theorem step_illegal {s : State} {w : Diw} (hr : s.run = .running) (hq : s.inFlight = none)
    (hw : s.prog[s.ip]? = some w) (hd : decode w = none) :
    step s = .next (faultEntry .unknownOperation s.advance) := by
  rw [step_cycle hr hq, cycle_at hw, hd]

/-! ### The mnemonic table (R64, R69, R73) -/

/-- The lookup finds every pair of the table: no mnemonic stands in it twice. -/
theorem opcodeOf_of_mem {operation : String} {n : BitVec 8} (h : (operation, n) ∈ mnemonicTable) :
    opcodeOf operation = n := by
  have htable : ∀ e ∈ mnemonicTable, opcodeOf e.1 = e.2 := by decide
  exact htable _ h

theorem opcodeOf_unknown {operation : String} (h : operation ∉ mnemonicTable.map Prod.fst) :
    opcodeOf operation = 0xFF#8 := by
  have hnone : mnemonicTable.lookup operation = none :=
    List.lookup_eq_none_iff.2 fun e he => bne_iff_ne.2 fun heq => h (heq ▸ List.mem_map_of_mem he)
  rw [opcodeOf, hnone]
  rfl

/-- A mnemonic's number is below the label marker's; any other text has the number `0xFF`. -/
theorem opcodeOf_lt_or (operation : String) : (opcodeOf operation).toNat < 0x1B ∨ opcodeOf operation = 0xFF#8 := by
  have hnumbers : ∀ e ∈ mnemonicTable, e.2.toNat < 0x1B := by decide
  by_cases h : operation ∈ mnemonicTable.map Prod.fst
  · obtain ⟨⟨_, n⟩, hmem, rfl⟩ := List.mem_map.1 h
    exact .inl (opcodeOf_of_mem hmem ▸ hnumbers _ hmem)
  · exact .inr (opcodeOf_unknown h)

/-! ### The word of a record (R72) -/

/-- The opcode number that a record's operation selects: the label marker's where it is empty. -/
def recordOpcode (operation : String) : BitVec 8 := if operation = "" then 0x1B#8 else opcodeOf operation

theorem recordOpcode_marker : recordOpcode "" = 0x1B#8 := rfl

theorem recordOpcode_of_ne {operation : String} (h : operation ≠ "") : recordOpcode operation = opcodeOf operation :=
  if_neg h

theorem recordOpcode_lt_or (operation : String) :
    (recordOpcode operation).toNat < 0x1C ∨ recordOpcode operation = 0xFF#8 := by
  by_cases h : operation = ""
  · exact .inl (by rw [h, recordOpcode_marker]; decide)
  · rw [recordOpcode_of_ne h]
    exact (opcodeOf_lt_or operation).imp_left Nat.lt_succ_of_lt

section
variable {rec : Record} (labels : List (String × Nat))

theorem diwOf_marker (h : rec.operation = "") : diwOf rec labels = slotsWord 0x1B#8 .empty .empty := if_pos h

/-- An unknown mnemonic, START and HLT: whatever the operands are, the slots stay empty. -/
theorem diwOf_bare (h : rec.operation ≠ "") (hopc : opcodeOf rec.operation ∈ [0xFF#8, 0x00#8, 0x1A#8]) :
    diwOf rec labels = slotsWord (opcodeOf rec.operation) .empty .empty := by
  rw [diwOf, if_neg h]
  exact if_pos (by simpa using hopc)

/-- Every other mnemonic: each slot is classified by the kind that the signature gives it. -/
theorem diwOf_classified (h : rec.operation ≠ "") (hopc : opcodeOf rec.operation ∉ [0xFF#8, 0x00#8, 0x1A#8]) :
    diwOf rec labels = slotsWord (opcodeOf rec.operation)
      (classify rec.op1 (opcodeSig (opcodeOf rec.operation).toNat).1 labels)
      (classify rec.op2 (opcodeSig (opcodeOf rec.operation).toNat).2 labels) := by
  rw [diwOf, if_neg h]
  exact if_neg (by simpa using hopc)

end

/-- Everything the word of a record can be. -/
theorem diwOf_cases (rec : Record) (labels : List (String × Nat)) :
    diwOf rec labels = slotsWord (recordOpcode rec.operation) .empty .empty ∨
    (rec.operation ≠ "" ∧ opcodeOf rec.operation ∉ [0xFF#8, 0x00#8, 0x1A#8] ∧
      diwOf rec labels = slotsWord (recordOpcode rec.operation)
        (classify rec.op1 (opcodeSig (opcodeOf rec.operation).toNat).1 labels)
        (classify rec.op2 (opcodeSig (opcodeOf rec.operation).toNat).2 labels)) := by
  by_cases h : rec.operation = ""
  · rw [h]
    exact .inl (diwOf_marker labels h)
  · rw [recordOpcode_of_ne h]
    by_cases hopc : opcodeOf rec.operation ∈ [0xFF#8, 0x00#8, 0x1A#8]
    · exact .inl (diwOf_bare labels h hopc)
    · exact .inr ⟨h, hopc, diwOf_classified labels h hopc⟩

theorem diwOf_opc (rec : Record) (labels : List (String × Nat)) :
    (diwOf rec labels).opc = recordOpcode rec.operation := by
  rcases diwOf_cases rec labels with h | ⟨-, -, h⟩ <;> rw [h, slotsWord_opc]

theorem diwOf_rsv (rec : Record) (labels : List (String × Nat)) : (diwOf rec labels).rsv = 0 := by
  rcases diwOf_cases rec labels with h | ⟨-, -, h⟩ <;> rw [h, slotsWord_rsv]

/-- Settles O4: no instruction has such a header, so the cycle that fetches one faults; and the load writes numbers of
the opcode map, or `0xFF`. -/
theorem illegalHeaderRaisesUnknownOperation : Obligations.IllegalHeaderRaisesUnknownOperation := by
  refine ⟨fun w h => ⟨decode_illegal h, fun s hr hq hw => step_illegal hr hq hw (decode_illegal h)⟩,
    fun rec labels => ⟨diwOf_rsv rec labels, ?_⟩⟩
  rw [diwOf_opc]
  exact recordOpcode_lt_or rec.operation

/-- Settles O6: the table written out is the model's, and the lookup is exact in it. -/
theorem operationSelectsOpcodeByExactLookup : Obligations.OperationSelectsOpcodeByExactLookup := by
  intro rec labels table htable
  change table = mnemonicTable at htable
  subst htable
  refine ⟨fun hmarker => ?_, fun n hmem => ?_, fun hne hunknown => ?_⟩
  · rw [diwOf_marker labels hmarker]
    exact decode_slotsWord_iff.2 ⟨rfl, rfl, rfl⟩
  · have hnonempty : ∀ e ∈ mnemonicTable, e.1 ≠ "" := by decide
    rw [diwOf_opc, recordOpcode_of_ne (hnonempty _ hmem), opcodeOf_of_mem hmem]
  · have hopc := opcodeOf_unknown hunknown
    have hword : diwOf rec labels = slotsWord 0xFF#8 .empty .empty := by
      rw [diwOf_bare labels hne (by simp [hopc]), hopc]
    refine ⟨hword, decode_illegal (.inl ?_)⟩
    rw [hword, slotsWord_opc]
    decide

/-! ### What a slot of each kind gets (R65, R72) -/

/-- A mnemonic whose operands the load classifies by the kinds `k1` and `k2`. -/
abbrev HasKinds (k1 k2 : OperandKind) (operation : String) : Prop :=
  operation ≠ "" ∧ opcodeOf operation ∉ [0xFF#8, 0x00#8, 0x1A#8] ∧ opcodeSig (opcodeOf operation).toNat = (k1, k2)

theorem diwOf_slots {rec : Record} (labels : List (String × Nat)) {k1 k2 : OperandKind}
    (h : HasKinds k1 k2 rec.operation) :
    (diwOf rec labels).slot1 = classify rec.op1 k1 labels ∧ (diwOf rec labels).slot2 = classify rec.op2 k2 labels := by
  obtain ⟨hne, hopc, hsig⟩ := h
  rw [diwOf_classified labels hne hopc, hsig, slotsWord_slot1, slotsWord_slot2]
  exact ⟨rfl, rfl⟩

/-! R65's table, row by row. -/

theorem hasKinds_int_none : ∀ operation ∈ ["LDC", "LDV", "STR"], HasKinds .int .none operation := by decide

theorem hasKinds_int_int : ∀ operation ∈ ["ALLOC", "DALLOC"], HasKinds .int .int operation := by decide

theorem hasKinds_label_none : ∀ operation ∈ ["JMP", "JMPF", "CALL"], HasKinds .label .none operation := by decide

theorem hasKinds_none_none : ∀ operation ∈ ["ADD", "SUB", "MULT", "DIVI", "INV", "AND", "OR", "NEG", "CME", "CMA", "CEQ",
    "CDIF", "CMEQ", "CMAQ", "RD", "PRN", "RETURN"], HasKinds .none .none operation := by decide

/-- The operand text decides the slot, by its kind. -/
theorem classify_some (text : String) (labels : List (String × Nat)) :
    classify (some text) .none labels = ⟨.bad, 0⟩ ∧
    (∀ v, parseInt text = some v → classify (some text) .int labels = ⟨.int, v⟩) ∧
    (parseInt text = none → classify (some text) .int labels = ⟨.bad, 0⟩) ∧
    (∀ j, labelIndex labels text = some j → classify (some text) .label labels = ⟨.label, indexWord j⟩) ∧
    (labelIndex labels text = none → classify (some text) .label labels = ⟨.bad, 0⟩) := by
  refine ⟨rfl, fun v h => ?_, fun h => ?_, fun j h => ?_, fun h => ?_⟩ <;> simp only [classify, h]

/-- Settles O9: the three forms of a record's word, the kinds of R65, and what each kind makes of a text. -/
theorem recordsDecodeIntoTheirWords : Obligations.RecordsDecodeIntoTheirWords := by
  refine ⟨fun rec labels => ⟨diwOf_marker labels, diwOf_bare labels, fun hne hopc => ?_⟩,
    fun rec labels k1 k2 h => diwOf_slots labels ?_,
    fun text labels => ⟨fun _ => rfl, classify_some text labels⟩⟩
  · exact ⟨(diwOf_opc rec labels).trans (recordOpcode_of_ne hne), diwOf_rsv rec labels,
      diwOf_slots labels ⟨hne, hopc, rfl⟩⟩
  · rcases h with ⟨rfl, rfl, h⟩ | ⟨rfl, rfl, h⟩ | ⟨rfl, rfl, h⟩ | ⟨rfl, rfl, h⟩
    · exact hasKinds_int_none _ h
    · exact hasKinds_int_int _ h
    · exact hasKinds_label_none _ h
    · exact hasKinds_none_none _ h

/-! ### A loaded image (R71, R72, R76) -/

/-- Only START, HLT and the label marker have slots that are ignored. -/
theorem opcodeSig_ne_ignored {n : Nat} (hn : n ∉ [0x00, 0x1A, 0x1B]) :
    (opcodeSig n).1 ≠ .ignored ∧ (opcodeSig n).2 ≠ .ignored := by
  unfold opcodeSig
  split <;> simp at hn ⊢

/-- The kinds that a record's operands are classified by are kinds of operands. -/
theorem opcodeOf_sig_ne_ignored {operation : String} (hopc : opcodeOf operation ∉ [0xFF#8, 0x00#8, 0x1A#8]) :
    (opcodeSig (opcodeOf operation).toNat).1 ≠ .ignored ∧ (opcodeSig (opcodeOf operation).toNat).2 ≠ .ignored := by
  obtain ⟨hunknown, hstart, hhlt⟩ : opcodeOf operation ≠ 0xFF#8 ∧ (opcodeOf operation).toNat ≠ 0x00 ∧
      (opcodeOf operation).toNat ≠ 0x1A := by simpa [← BitVec.toNat_inj] using hopc
  have hmarker : (opcodeOf operation).toNat ≠ 0x1B := ((opcodeOf_lt_or operation).resolve_right hunknown).ne
  exact opcodeSig_ne_ignored (by simp [hstart, hhlt, hmarker])

theorem empty_wellFormed (k : OperandKind) (len : Nat) : Slot.wellFormed k len .empty = true := by cases k <;> rfl

/-- The word of a record, where it decodes, holds in its slots what the load may write there. -/
theorem diwOf_wellFormed {rec : Record} {labels : List (String × Nat)} {len : Nat} (hl : ∀ e ∈ labels, e.2 < len)
    {i : Instr} (hi : decode (diwOf rec labels) = some i) : i.wellFormed len = true := by
  rw [Instr.wellFormed, Bool.and_eq_true, Instr.sig]
  rcases diwOf_cases rec labels with h | ⟨hne, hopc, h⟩
  · obtain ⟨-, hslot1, hslot2⟩ := decode_slotsWord_iff.1 (h ▸ hi)
    rw [hslot1, hslot2]
    exact ⟨empty_wellFormed _ _, empty_wellFormed _ _⟩
  · obtain ⟨hnum, hslot1, hslot2⟩ := decode_slotsWord_iff.1 (h ▸ hi)
    rw [← hnum, recordOpcode_of_ne hne, hslot1, hslot2]
    obtain ⟨hk1, hk2⟩ := opcodeOf_sig_ne_ignored hopc
    exact ⟨classify_wellFormed _ hl hk1, classify_wellFormed _ hl hk2⟩

/-- Settles O8: every word of the image is that of a record, and the scan maps labels to indices of the image. -/
theorem loadedWordsAreWellFormed : Obligations.LoadedWordsAreWellFormed := by
  intro recs attached s w i hw hi
  obtain ⟨rec, -, rfl⟩ := List.mem_map.1 hw
  have hlabels : ∀ e ∈ scanLabels 0 recs [], e.2 < recs.length := by
    simpa using scanLabels_lt recs 0 [] (fun _ h => nomatch h)
  exact diwOf_wellFormed hlabels hi

/-! ### Integer operand texts (R66) -/

/-- A sign or none, and then digits. -/
theorem signedDigits_eq {cs : List Char} {x : Int} : signedDigits cs = some x ↔
    ∃ (sign rest : List Char) (n : Nat), (sign = [] ∨ sign = ['+'] ∨ sign = ['-']) ∧ cs = sign ++ rest ∧
      digits rest = some n ∧ x = (if sign = ['-'] then -1 else 1) * (n : Int) := by
  constructor
  · intro h
    unfold signedDigits at h
    split at h
    · cases h
    · next c cs =>
      split_ifs at h with hminus hplus <;> obtain ⟨n, hn, rfl⟩ := Option.map_eq_some_iff.1 h
      · exact ⟨['-'], cs, n, by simp, by simp [hminus], hn, by simp⟩
      · exact ⟨['+'], cs, n, by simp, by simp [hplus], hn, by simp⟩
      · exact ⟨[], c :: cs, n, by simp, rfl, hn, by simp⟩
  · rintro ⟨sign, rest, n, rfl | rfl | rfl, rfl, hn, rfl⟩
    · cases cs with
      | nil => cases hn
      | cons c cs =>
        have hminus : c ≠ '-' := by rintro rfl; cases hn
        have hplus : c ≠ '+' := by rintro rfl; cases hn
        simp [signedDigits, hminus, hplus, hn]
    · simp [signedDigits, hn]
    · simp [signedDigits, hn]

/-- A text stands for the word whose signed value its decimal value is; out of range there is no such word. -/
theorem parseInt_eq {text : String} {v : Word} : parseInt text = some v ↔ signedDigits text.toList = some v.toInt := by
  unfold parseInt
  cases signedDigits text.toList with
  | none => simp
  | some x =>
    have hlow : -2 ^ 63 ≤ v.toInt := v.le_toInt
    have hhigh : v.toInt < 2 ^ 63 := v.toInt_lt
    simp only [Option.some.injEq]
    constructor
    · intro h
      split_ifs at h with hx
      cases h
      exact (BitVec.toInt_ofInt_eq_self (by decide) hx.1 (by omega)).symm
    · rintro rfl
      rw [if_pos ⟨hlow, by omega⟩, wrap64, BitVec.ofInt_toInt]

/-- Settles O7: the sign is split off, and the digits are read by their decimal value. -/
theorem integerTextsAreSignedDecimals : Obligations.IntegerTextsAreSignedDecimals := by
  intro text v
  rw [parseInt_eq, signedDigits_eq]
  constructor
  · rintro ⟨sign, rest, n, hsign, htext, hdigits, hv⟩
    obtain ⟨ds, hne, rfl, rfl⟩ := digits_eq.1 hdigits
    exact ⟨sign, ds, hsign, hne, htext, hv⟩
  · rintro ⟨sign, ds, hsign, hne, htext, hv⟩
    exact ⟨sign, _, _, hsign, htext, digits_eq.2 ⟨ds, hne, rfl, rfl⟩, hv⟩

/-! ### The operand check (R65, R76, 40_dispatch.md R92) -/

theorem kindFault_eq_false_iff {k : OperandKind} {o : Slot} : kindFault k o = false ↔ SlotKindOk k o := by
  cases k <;> simp [kindFault, SlotKindOk]

theorem labelFault_eq_false_iff {k : OperandKind} {len : Nat} {o : Slot} :
    labelFault k len o = false ↔ SlotLabelOk k len o := by
  cases k <;> simp [labelFault, SlotLabelOk]

/-- Every table opcode begins with the operand check of its signature. -/
theorem exec_eq_withOperands (i : Instr) (s : State) (h : i.sig.1 ≠ .ignored) :
    ∃ r, exec i s = withOperands i.sig.1 i.sig.2 i.slot1 i.slot2 s r := by
  cases i with
  | start o1 o2 => exact absurd rfl h
  | hlt o1 o2 => exact absurd rfl h
  | labelMarker o1 o2 => exact absurd rfl h
  | _ => unfold exec; exact ⟨_, rfl⟩

/-- Settles O24: the operand check is what every table opcode does first, and its first pass looks at both slots. -/
theorem operandCheckComesFirst : Obligations.OperandCheckComesFirst := by
  intro i s htable
  obtain ⟨r, hr⟩ := exec_eq_withOperands i s htable
  simp only [hr, ← kindFault_eq_false_iff, ← labelFault_eq_false_iff, not_and_or, Bool.not_eq_false]
  exact ⟨withOperands_kind, withOperands_label⟩

end Sys2Proof.Machine

/-! PROOFS. The statements of spec/40_dispatch.md: the load (R90), the end of a run (R91, R97) and the loop-handled
instructions (R93 to R95). -/

namespace Sys2Proof.Machine

/-! ### The launch and the load (R90) -/

theorem hostAct_launch_idle {recs : Option (List Record)} {attached : Bool} {s : State} (h : s.run = .idle) :
    hostAct (.launch recs attached) s = .next (load Config.progMax recs attached s) :=
  congrArg Host.Outcome.next (if_pos h)

theorem hostAct_launch_not_idle {recs : Option (List Record)} {attached : Bool} {s : State} (h : s.run ≠ .idle) :
    hostAct (.launch recs attached) s = .next s := congrArg Host.Outcome.next (if_neg h)

theorem loadable_iff {progMax : Nat} {recs : List Record} : loadable progMax recs = true ↔
    ∃ r rest, recs = r :: rest ∧ r.operation = "START" ∧ recs.length ≤ progMax := by
  cases recs <;> simp [loadable]

theorem load_loadable {progMax : Nat} {recs : List Record} (attached : Bool) (s : State)
    (h : loadable progMax recs = true) : load progMax (some recs) attached s = startRun recs attached s := if_pos h

theorem load_not_loadable {progMax : Nat} {recs : List Record} (attached : Bool) (s : State)
    (h : ¬ loadable progMax recs = true) : load progMax (some recs) attached s = loadFault s := if_neg h

/-- The label map of a started run: a name maps to the highest index that carries it. -/
theorem startRun_labelIndex (recs : List Record) (attached : Bool) (s : State) (name : String) (j : Nat) :
    labelIndex (startRun recs attached s).labels name = some j ↔
      name ≠ "" ∧ recs[j]?.bind Record.label = some name ∧
      ∀ k : Nat, j < k → recs[k]?.bind Record.label ≠ some name := by
  have hempty : labelIndex [] name ≠ some j := nofun
  simp only [startRun, labelIndex_scanLabels, hempty, false_and, or_false, Nat.zero_add, exists_eq_left']

/-- Settles O10: in IDLE the launch is the load, which starts the run where the records are loadable and faults where
they are not. -/
theorem launchLoadsAndStartsAtIndexOne : Obligations.LaunchLoadsAndStartsAtIndexOne := by
  refine ⟨fun recs attached s => hostAct_launch_not_idle, fun recs attached s hidle => ⟨?_, fun hbad => ?_, ?_⟩⟩
  · exact hostAct_launch_idle hidle
  · have hnot : ¬ loadable Config.progMax recs = true := by
      rw [loadable_iff]
      rintro ⟨r, rest, rfl, hstart, hlen⟩
      rcases hbad with hnil | ⟨q, tail, heq, hother⟩ | hlong
      · cases hnil
      · cases heq
        exact hother hstart
      · exact absurd hlen (Nat.not_le_of_lt hlong)
    rw [hostAct_launch_idle hidle, load_not_loadable attached s hnot]
    rfl
  · intro r rest hrecs hstart hlen
    have hload := load_loadable attached s (loadable_iff.2 ⟨r, rest, hrecs, hstart, hlen⟩)
    refine ⟨startRun recs attached s, ?_, rfl, List.length_map _, fun j q hq => ?_,
      startRun_labelIndex recs attached s⟩
    · rw [hostAct_launch_idle hidle, hload]
    · simp [startRun, hq]

/-! ### How a run ends (R91, R95, R97) -/

/-- `t` has the run state of `s`, or it is a fault with its code. -/
def KeepsRunOrFaults (s t : State) : Prop := t.run = s.run ∨ t.run = .faulted ∧ t.faultCode ≠ .noFault

section
variable {s t : State}

theorem keepsRunOrFaults_faultEntry {f : FaultCode} {u : State} (hf : f ≠ .noFault) :
    KeepsRunOrFaults s (faultEntry f u) := .inr ⟨rfl, hf⟩

theorem resumeRead_keepsRunOrFaults (h : resumeRead s = .next t) : KeepsRunOrFaults s t := by
  rcases resumeRead_next h with ⟨-, rfl⟩ | ⟨r, rest, -, h⟩
  · exact .inl rfl
  · rcases completeRead_next h with ⟨-, rfl⟩ | ⟨v, -, -, -, rfl⟩
    · exact keepsRunOrFaults_faultEntry nofun
    · exact .inl rfl

theorem resumeWrite_keepsRunOrFaults (h : resumeWrite s = .next t) : KeepsRunOrFaults s t := by
  rcases resumeWrite_next h with ⟨-, rfl⟩ | ⟨r, rest, -, h⟩
  · exact .inl rfl
  · rcases completeWrite_next h with ⟨-, rfl⟩ | ⟨-, rfl⟩
    · exact keepsRunOrFaults_faultEntry nofun
    · exact .inl rfl

theorem resumeIo_keepsRunOrFaults {q : IoRequest} (h : resumeIo q s = .next t) : KeepsRunOrFaults s t := by
  cases q with
  | rdReq => exact resumeRead_keepsRunOrFaults h
  | wrReq v => exact resumeWrite_keepsRunOrFaults h

/-- Of the instructions only HLT ends a run without a fault. -/
theorem Effect.halts_or_keepsRunOrFaults {i : Instr} (h : Effect i s t) :
    (∃ o1 o2, i = .hlt o1 o2 ∧ t = s.halt false) ∨ KeepsRunOrFaults s t := by
  cases h with
  | fault f code eq => exact .inr (eq ▸ keepsRunOrFaults_faultEntry code)
  | plain only sp wf ip => exact .inr (.inl (by rw [only]))
  | halt o1 o2 instr eq => exact .inl ⟨o1, o2, instr, eq⟩
  | read o1 o2 instr room attached eq =>
    have hissued := resumeRead_keepsRunOrFaults eq
    exact .inr hissued
  | write o1 o2 instr present attached eq =>
    have hissued := resumeWrite_keepsRunOrFaults eq
    exact .inr hissued

/-- A step of a running state halts at the end of the image or at HLT, and else runs on or faults. -/
theorem step_halts_or_keepsRunOrFaults (hr : s.run = .running) (h : step s = .next t) :
    (s.inFlight = none ∧ s.ip = s.len ∧ t = s.halt true) ∨
    (∃ w o1 o2, s.inFlight = none ∧ s.prog[s.ip]? = some w ∧ decode w = some (.hlt o1 o2) ∧
      t = s.advance.halt false) ∨
    KeepsRunOrFaults s t := by
  rcases step_cases h with ⟨hn, -⟩ | ⟨q, -, -, h⟩ | ⟨-, hq, hend, h⟩ | ⟨w, -, -, -, -, rfl⟩ |
    ⟨w, i, -, hq, hw, hd, h⟩
  · exact absurd hr hn
  · exact .inr (.inr (resumeIo_keepsRunOrFaults h))
  · exact .inl ⟨hq, hend, h⟩
  · exact .inr (.inr (keepsRunOrFaults_faultEntry nofun))
  · rcases (exec_effect h).halts_or_keepsRunOrFaults with ⟨o1, o2, rfl, ht⟩ | hk
    · exact .inr (.inl ⟨w, o1, o2, hq, hw, hd, ht⟩)
    · exact .inr (.inr hk)

end

/-- Settles O18: a step that does not halt the run lets it run on or faults. -/
theorem onlyEndHltOrFaultEndARun : Obligations.OnlyEndHltOrFaultEndARun := by
  intro s t hr h hended
  rcases step_halts_or_keepsRunOrFaults hr h with ⟨hq, hend, rfl⟩ | ⟨w, o1, o2, hq, hw, hd, rfl⟩ | hsame | hfault
  · exact .inl ⟨rfl, hq, .inl ⟨hend, rfl⟩⟩
  · exact .inl ⟨rfl, hq, .inr ⟨w, o1, o2, hw, hd, rfl⟩⟩
  · exact absurd (hsame.trans hr) hended
  · exact .inr hfault

/-- Settles O23: the cycle looks for the end of the image before it fetches. -/
theorem endOfImageHalts : Obligations.EndOfImageHalts := by
  intro s hr hq hend
  rw [step_cycle hr hq, cycle_end hend]
  rfl

/-! ### The loop-handled instructions (R93 to R95) -/

theorem exec_start (o1 o2 : Slot) (s : State) : exec (.start o1 o2) s = .next s := rfl

theorem exec_labelMarker (o1 o2 : Slot) (s : State) : exec (.labelMarker o1 o2) s = .next s := rfl

theorem exec_hlt (o1 o2 : Slot) (s : State) : exec (.hlt o1 o2) s = .next (s.halt false) := rfl

/-- Settles O26: the step is the meaning after the fetch increment, and both meanings leave that state. -/
theorem startAndLabelMarkerAreNoOps : Obligations.StartAndLabelMarkerAreNoOps := by
  intro o1 o2 s
  refine ⟨rfl, rfl, exec_start o1 o2 s, exec_labelMarker o1 o2 s, fun w hr hq hw hd => ?_⟩
  rcases hd with hd | hd
  · rw [stepRunsDecodedInstruction s w _ hr hq hw hd, exec_start]
  · rw [stepRunsDecodedInstruction s w _ hr hq hw hd, exec_labelMarker]

/-- Settles O27: the step is the meaning after the fetch increment, and HLT writes `run` and `halt_cause` alone. -/
theorem hltHalts : Obligations.HltHalts := by
  intro o1 o2 s
  refine ⟨rfl, exec_hlt o1 o2 s, fun w hr hq hw hd => ?_⟩
  rw [stepRunsDecodedInstruction s w _ hr hq hw hd, exec_hlt]
  rfl

end Sys2Proof.Machine

/-! PROOFS. The statements of spec/41_load_store.md: LDC (R110), LDV (R111) and STR (R112), each with its faults in the
order of R201 and its frame. -/

namespace Sys2Proof.Machine

/-! ### What the three instructions share -/

/-- The operand fault of the instructions that take one integer. -/
theorem exec_not_oneInt (i : Instr) (s : State) (hsig : i.sig = (.int, .none)) (h : ¬ OneInt i.slot1 i.slot2) :
    exec i s = .next (faultEntry .operandTypeError s) :=
  (operandCheckComesFirst i s (by simp [hsig])).1 (by simpa [hsig, SlotKindOk] using h)

/-- A push writes the cell above the old top and no other (10_state.md R23). -/
theorem pushed_sameCellsExcept (v : Word) {s : State} (hs : s.SpInRange) :
    SameCellsExcept (s.sp + 1) s (pushed v s) := fun _ => pushed_cell_other v hs.1

theorem pushed_onlyStackAndSp (v : Word) (s : State) : OnlyStackAndSp s (pushed v s) := rfl

/-- A store that moves `sp` as well writes its own cell and no other. -/
theorem setCell_setSp_sameCellsExcept (s : State) {a : Int} (v : Word) (x : Int) (ha : 0 ≤ a) :
    SameCellsExcept a s ((s.setCell a v).setSp x) := fun _ => cell_setCell_other s v ha

theorem setCell_setSp_onlyStackAndSp (s : State) (a : Int) (v : Word) (x : Int) :
    OnlyStackAndSp s ((s.setCell a v).setSp x) := rfl

section
variable {o1 o2 : Slot} {s : State} (ho : OneInt o1 o2)
include ho

/-! ### LDC (R110) -/

theorem execLdc_full (hfull : s.sp = Config.stackCap - 1) :
    execLdc o1 o2 s = .next (faultEntry .stackOverflow s) := by
  rw [execLdc, withOperands_int ho.1 ho.2, checkRoom_neg (by rw [hfull]; decide)]

theorem execLdc_pushes (hs : s.SpInRange) (hroom : s.sp < Config.stackCap - 1) :
    execLdc o1 o2 s = .next (pushed o1.val s) := by
  have hfree : s.sp + 1 ≤ 8191 := hroom
  rw [execLdc, withOperands_int ho.1 ho.2, checkRoom_pos hfree, push_room hs.1 hfree]

/-! ### LDV (R111) -/

theorem execLdv_noCell (ha : ¬ Config.inArray o1.val.toInt) :
    execLdv o1 o2 s = .next (faultEntry .addressOutOfRange s) := by
  rw [execLdv, withOperands_int ho.1 ho.2, checkAddress_neg ha]

theorem execLdv_full (ha : Config.inArray o1.val.toInt) (hfull : s.sp = Config.stackCap - 1) :
    execLdv o1 o2 s = .next (faultEntry .stackOverflow s) := by
  rw [execLdv, withOperands_int ho.1 ho.2, checkAddress_pos ha, checkRoom_neg (by rw [hfull]; decide)]

/-! ### STR (R112) -/

theorem execStr_noCell (ha : ¬ Config.inArray o1.val.toInt) :
    execStr o1 o2 s = .next (faultEntry .addressOutOfRange s) := by
  rw [execStr, withOperands_int ho.1 ho.2, checkAddress_neg ha]

theorem execStr_empty (ha : Config.inArray o1.val.toInt) (hempty : s.sp < Config.startSp + 1) :
    execStr o1 o2 s = .next (faultEntry .stackUnderflow s) := by
  rw [execStr, withOperands_int ho.1 ho.2, checkAddress_pos ha, checkPresent_neg hempty]

end

/-- Settles O28: below a full stack LDC is the push of its literal. -/
theorem ldcPushesItsLiteral : Obligations.LdcPushesItsLiteral := by
  intro o1 o2 s hs
  refine ⟨rfl, exec_not_oneInt (.ldc o1 o2) s rfl, execLdc_full, fun ho hroom => ⟨pushed o1.val s, ?_⟩⟩
  exact ⟨execLdc_pushes ho hs hroom, pushed_sp _ s, pushed_cell_top _ s, pushed_sameCellsExcept _ hs,
    pushed_onlyStackAndSp _ s⟩

/-- Settles O29: below a full stack LDV is the push of the cell it names, read before the push. -/
theorem ldvPushesTheAddressedCell : Obligations.LdvPushesTheAddressedCell := by
  intro o1 o2 s hs
  refine ⟨rfl, exec_not_oneInt (.ldv o1 o2) s rfl, execLdv_noCell, execLdv_full,
    fun ho ha hroom => ⟨pushed (s.cell o1.val.toInt) s, ?_⟩⟩
  exact ⟨execLdv_pushes hs ho ha hroom, pushed_sp _ s, pushed_cell_top _ s, pushed_sameCellsExcept _ hs,
    pushed_onlyStackAndSp _ s⟩

/-- Settles O30: STR of a value stores the top and moves `sp`; where the cell is the top itself, it keeps its value. -/
theorem strPopsIntoTheAddressedCell : Obligations.StrPopsIntoTheAddressedCell := by
  intro o1 o2 s hs
  refine ⟨rfl, exec_not_oneInt (.str o1 o2) s rfl, execStr_noCell, execStr_empty,
    fun ho ha hvalue => ⟨(s.setCell o1.val.toInt (s.cell s.sp)).setSp (s.sp - 1), ?_⟩⟩
  exact ⟨execStr_stores hs ho ha hvalue, setSp_sp _ _, cell_setCell_same s _ _,
    setCell_setSp_sameCellsExcept s _ _ ha.1, setCell_setSp_onlyStackAndSp s _ _ _⟩

end Sys2Proof.Machine

/-! PROOFS. The statements of spec/42_arithmetic.md: ADD, SUB and MULT (R120 to R122), DIVI (R123), INV (R124), and NEG
of spec/43_logic.md (R132), which has INV's shape. -/

namespace Sys2Proof.Machine

/-! ### The operator shapes -/

/-- The operand fault of the instructions that take no operand (40_dispatch.md R92). -/
theorem withOperands_not_noOperands {o1 o2 : Slot} {s : State} {r : Word → Word → Out} (h : ¬ NoOperands o1 o2) :
    withOperands .none .none o1 o2 s r = .next (faultEntry .operandTypeError s) :=
  withOperands_kind (by simpa [kindFault] using not_and_or.1 h)

/-- A binary operator writes the second's cell and no other, and moves `sp` alone (42_arithmetic.md R125). -/
theorem binaryResult_frame (f : Word → Word → Word) {s : State} (htwo : Config.startSp + 2 ≤ s.sp) :
    SameCellsExcept (s.sp - 1) s (binaryResult f s) ∧ OnlyStackAndSp s (binaryResult f s) :=
  ⟨setCell_setSp_sameCellsExcept s _ _ (Int.sub_nonneg_of_le htwo), setCell_setSp_onlyStackAndSp s _ _ _⟩

/-- An instruction that is the operand check and a binary operator obeys the whole rule of one. -/
theorem binaryRule_of_exec {mk : Slot → Slot → Instr} {opc : BitVec 8} {f : Word → Word → Word}
    (hopc : ∀ o1 o2, (mk o1 o2).opcode = opc)
    (hexec : ∀ o1 o2 s, exec (mk o1 o2) s = withOperands .none .none o1 o2 s fun _ _ => binaryOp f s) :
    BinaryRule mk opc f := by
  intro o1 o2 s hs
  rw [hexec]
  refine ⟨hopc o1 o2, withOperands_not_noOperands, fun ho hshort => ?_,
    fun ho htwo => ⟨binaryResult f s, ?_, setSp_sp _ _, cell_setCell_same s _ _, binaryResult_frame f htwo⟩⟩
  · rw [withOperands_none ho.1 ho.2, binaryOp_short hshort]
  · rw [withOperands_none ho.1 ho.2, binaryOp_result htwo hs.2]

/-- An instruction that is the operand check and an operator on the top obeys the whole rule of one. -/
theorem unaryRule_of_exec {mk : Slot → Slot → Instr} {opc : BitVec 8} {f : Word → Word}
    (hopc : ∀ o1 o2, (mk o1 o2).opcode = opc)
    (hexec : ∀ o1 o2 s, exec (mk o1 o2) s = withOperands .none .none o1 o2 s fun _ _ => unaryOp f s) :
    UnaryRule mk opc f := by
  intro o1 o2 s hs
  rw [hexec]
  refine ⟨hopc o1 o2, withOperands_not_noOperands, fun ho hshort => ?_,
    fun ho hone => ⟨unaryResult f s, ?_, setCell_sp s _ _, cell_setCell_same s _ _, ?_, rfl⟩⟩
  · rw [withOperands_none ho.1 ho.2, unaryOp_short hshort]
  · rw [withOperands_none ho.1 ho.2, unaryOp_result hone hs.2]
  · exact fun _ => cell_setCell_other s _ hone

/-! ### ADD, SUB and MULT (R120 to R122) -/

/-- Settles O35: each of the three is the operand check and a binary operator. -/
theorem addSubMultCombineTheTopTwo : Obligations.AddSubMultCombineTheTopTwo :=
  ⟨binaryRule_of_exec (fun _ _ => rfl) fun _ _ _ => rfl,
    binaryRule_of_exec (fun _ _ => rfl) fun _ _ _ => rfl,
    binaryRule_of_exec (fun _ _ => rfl) fun _ _ _ => rfl⟩

/-! ### DIVI (R123) -/

theorem execDivi_not_noOperands {o1 o2 : Slot} {s : State} (h : ¬ NoOperands o1 o2) :
    execDivi o1 o2 s = .next (faultEntry .operandTypeError s) := withOperands_not_noOperands h

section
variable {o1 o2 : Slot} {s : State} (ho : NoOperands o1 o2)
include ho

theorem execDivi_short (hshort : s.sp < Config.startSp + 2) :
    execDivi o1 o2 s = .next (faultEntry .stackUnderflow s) := by
  rw [execDivi, withOperands_none ho.1 ho.2, checkPresent_neg hshort]

variable (hs : s.SpInRange) (htwo : Config.startSp + 2 ≤ s.sp)
include hs htwo

/-- With two values on the stack and no operand, DIVI reads both and then looks at the divisor. -/
theorem execDivi_reads : execDivi o1 o2 s =
    check (s.cell s.sp ≠ 0#64) .arithmeticError s
      (.next (binaryResult (fun a b => wrap64 (truncDiv a.toInt b.toInt)) s)) := by
  have hpos : 1 ≤ s.sp := htwo
  have hmax : s.sp ≤ 8191 := hs.2
  have hsecond : Config.inArray (s.sp - 1) := inArray_iff.2 (by omega)
  have htop : Config.inArray s.sp := top_inArray hs (by omega)
  rw [execDivi, withOperands_none ho.1 ho.2, checkPresent_pos hpos, memRead_in hsecond, memRead_in htop,
    memWrite_in hsecond]
  rfl

theorem execDivi_zeroDivisor (hzero : s.cell s.sp = 0#64) :
    execDivi o1 o2 s = .next (faultEntry .arithmeticError s) := by
  rw [execDivi_reads ho hs htwo, check_neg (not_not_intro hzero)]

theorem execDivi_divides (hdivisor : s.cell s.sp ≠ 0#64) :
    execDivi o1 o2 s = .next (binaryResult (fun a b => wrap64 (truncDiv a.toInt b.toInt)) s) := by
  rw [execDivi_reads ho hs htwo, check_pos hdivisor]

end

/-- Settles O36: DIVI looks for operands, for two values and for a zero divisor in this order, and then it is a binary
operator. -/
theorem diviDividesSecondByTop : Obligations.DiviDividesSecondByTop := by
  intro o1 o2 s hs
  refine ⟨rfl, execDivi_not_noOperands, execDivi_short, fun ho => execDivi_zeroDivisor ho hs,
    fun ho htwo hdivisor => ⟨_, execDivi_divides ho hs htwo hdivisor, setSp_sp _ _, cell_setCell_same s _ _,
      binaryResult_frame _ htwo⟩⟩

/-! ### INV (R124) and NEG (R132) -/

/-- Settles O37: each of the two is the operand check and an operator on the top. -/
theorem invAndNegReplaceTheTop : Obligations.InvAndNegReplaceTheTop :=
  ⟨unaryRule_of_exec (fun _ _ => rfl) fun _ _ _ => rfl, unaryRule_of_exec (fun _ _ => rfl) fun _ _ _ => rfl⟩

theorem OnlyStackAndSp.trans {s t u : State} (h : OnlyStackAndSp s t) (h' : OnlyStackAndSp t u) :
    OnlyStackAndSp s u := by
  unfold OnlyStackAndSp at h h' ⊢
  rw [h', h]

/-- Taking a word from `k` twice gives it back: it is congruent to `k - (k - x)`, and only one word is (00_scope.md
R11). -/
theorem wrap64_sub_wrap64_sub (k : Int) (x : Word) : wrap64 (k - (wrap64 (k - x.toInt)).toInt) = x := by
  refine ((wrapIsTheCongruentWord _ x).2 ?_).symm
  have hinner : (2 : Int) ^ 64 ∣ (wrap64 (k - x.toInt)).toInt - (k - x.toInt) := (wrapIsTheCongruentWord _ _).1 rfl
  convert hinner using 1
  ring

/-- An operator on the top that undoes itself leaves everything as it was when it runs twice. -/
theorem UnaryRule.twice_restores {mk : Slot → Slot → Instr} {opc : BitVec 8} {f : Word → Word}
    (hrule : UnaryRule mk opc f) (hf : ∀ x, f (f x) = x) {o1 o2 : Slot} {s : State} (hs : s.SpInRange)
    (ho : NoOperands o1 o2) (hone : Config.startSp + 1 ≤ s.sp) :
    ∃ t u, exec (mk o1 o2) s = .next t ∧ exec (mk o1 o2) t = .next u ∧ SameCells s u ∧ OnlyStackAndSp s u ∧
      u.sp = s.sp := by
  obtain ⟨-, -, -, hruns⟩ := hrule o1 o2 s hs
  obtain ⟨t, ht, htsp, httop, htother, htonly⟩ := hruns ho hone
  obtain ⟨-, -, -, hruns⟩ := hrule o1 o2 t (by rwa [State.SpInRange, htsp])
  obtain ⟨u, hu, husp, hutop, huother, huonly⟩ := hruns ho (htsp ▸ hone)
  rw [htsp] at husp hutop huother
  refine ⟨t, u, ht, hu, fun a ha => ?_, htonly.trans huonly, husp⟩
  by_cases htop : a = s.sp
  · rw [htop, hutop, httop, hf]
  · rw [huother a ha htop, htother a ha htop]

/-- Settles O38: INV is `0 - x` and NEG `1 - x`, and both undo themselves. -/
theorem invAndNegTwiceRestore : Obligations.InvAndNegTwiceRestore := by
  obtain ⟨hinv, hneg⟩ := invAndNegReplaceTheTop
  intro o1 o2 s hs ho hone
  exact ⟨hinv.twice_restores (wrap64_sub_wrap64_sub 0) hs ho hone,
    hneg.twice_restores (wrap64_sub_wrap64_sub 1) hs ho hone⟩

end Sys2Proof.Machine

/-! PROOFS. The statement of spec/43_logic.md about AND and OR (R130, R131). -/

namespace Sys2Proof.Machine

/-- Settles O39: each of the two is the operand check and a binary operator, whose truth values are the equalities with
1 themselves. -/
theorem andOrTestEqualityToOne : Obligations.AndOrTestEqualityToOne :=
  ⟨binaryRule_of_exec (fun _ _ => rfl) fun _ _ _ => rfl, binaryRule_of_exec (fun _ _ => rfl) fun _ _ _ => rfl⟩

end Sys2Proof.Machine

/-! PROOFS. The statements of spec/44_compare.md: the six comparisons (R140 to R145), and the pairs of them that
complement each other. -/

namespace Sys2Proof.Machine

/-- Two words are equal where their signed values are; CEQ and CDIF look at the words (44_compare.md R142, R143). -/
theorem boolWord_eq_signed (a b : Word) : boolWord (a = b) = if a.toInt = b.toInt then 1#64 else 0#64 := by
  simp only [boolWord, BitVec.toInt_inj]

theorem boolWord_ne_signed (a b : Word) : boolWord (a ≠ b) = if a.toInt ≠ b.toInt then 1#64 else 0#64 := by
  simp only [boolWord, ne_eq, BitVec.toInt_inj]

/-- Settles O40: each of the six is the operand check and a binary operator, whose truth value is the signed comparison
itself, or for CEQ and CDIF that of the words, which is the same. -/
theorem comparisonsReplaceTheTopTwoByTheirTruth : Obligations.ComparisonsReplaceTheTopTwoByTheirTruth := by
  refine ⟨binaryRule_of_exec (fun _ _ => rfl) fun _ _ _ => rfl, binaryRule_of_exec (fun _ _ => rfl) fun _ _ _ => rfl,
    binaryRule_of_exec (fun _ _ => rfl) fun _ _ _ => ?ceq, binaryRule_of_exec (fun _ _ => rfl) fun _ _ _ => ?cdif,
    binaryRule_of_exec (fun _ _ => rfl) fun _ _ _ => rfl, binaryRule_of_exec (fun _ _ => rfl) fun _ _ _ => rfl⟩
  case ceq => simp only [← boolWord_eq_signed]; rfl
  case cdif => simp only [← boolWord_ne_signed]; rfl

/-- Two binary operators whose results add to 1 leave on one state two tops of which one is 1 minus the other. -/
theorem BinaryRule.complement {mk mk' : Slot → Slot → Instr} {opc opc' : BitVec 8} {f g : Word → Word → Word}
    (hf : BinaryRule mk opc f) (hg : BinaryRule mk' opc' g) (hfg : ∀ a b, g a b = 1#64 - f a b) {o1 o2 : Slot}
    {s : State} (hs : s.SpInRange) (ho : NoOperands o1 o2) (htwo : Config.startSp + 2 ≤ s.sp) :
    ∃ t u, exec (mk o1 o2) s = .next t ∧ exec (mk' o1 o2) s = .next u ∧ u.cell u.sp = 1#64 - t.cell t.sp := by
  obtain ⟨-, -, -, hruns⟩ := hf o1 o2 s hs
  obtain ⟨t, ht, htsp, httop, -⟩ := hruns ho htwo
  obtain ⟨-, -, -, hruns⟩ := hg o1 o2 s hs
  obtain ⟨u, hu, husp, hutop, -⟩ := hruns ho htwo
  exact ⟨t, u, ht, hu, by rw [husp, htsp, hutop, httop, hfg]⟩

/-- The truth value of a proposition that fails where `p` holds is 1 minus that of `p`. -/
theorem truth_complement {p q : Prop} [Decidable p] [Decidable q] (hpq : q ↔ ¬ p) :
    (if q then 1#64 else 0#64) = 1#64 - if p then 1#64 else 0#64 := by
  by_cases hp : p
  · rw [if_pos hp, if_neg fun hq => hpq.1 hq hp]; rfl
  · rw [if_neg hp, if_pos (hpq.2 hp)]; rfl

/-- Settles O41: `≠`, `≤` and `≥` are the negations of `=`, `>` and `<`. -/
theorem comparisonsComplementEachOther : Obligations.ComparisonsComplementEachOther := by
  obtain ⟨hcme, hcma, hceq, hcdif, hcmeq, hcmaq⟩ := comparisonsReplaceTheTopTwoByTheirTruth
  intro o1 o2 s hs ho htwo
  exact ⟨hceq.complement hcdif (fun _ _ => truth_complement Iff.rfl) hs ho htwo,
    hcma.complement hcmeq (fun _ _ => truth_complement not_lt.symm) hs ho htwo,
    hcme.complement hcmaq (fun _ _ => truth_complement not_lt.symm) hs ho htwo⟩

end Sys2Proof.Machine

/-! PROOFS. The statements of spec/45_branch_call.md: JMP (R150), JMPF (R151), CALL (R152), RETURN (R153), and the
round trip of the last two (R155). -/

namespace Sys2Proof.Machine

/-! ### The label operand -/

/-- An instruction whose signature is one label has the operand faults of one. -/
theorem labelOperandFaults_of_sig {mk : Slot → Slot → Instr} (hsig : ∀ o1 o2, (mk o1 o2).sig = (.label, .none))
    (hslot1 : ∀ o1 o2, (mk o1 o2).slot1 = o1) (hslot2 : ∀ o1 o2, (mk o1 o2).slot2 = o2) : LabelOperandFaults mk := by
  intro o1 o2 s
  obtain ⟨hkind, hlabel⟩ := operandCheckComesFirst (mk o1 o2) s (by simp [hsig])
  simp only [hsig, hslot1, hslot2, SlotKindOk] at hkind hlabel
  refine ⟨fun hor => hkind ?_, fun hpresent hnone hbad => hlabel hpresent hnone ?_⟩
  · rwa [not_and_or, not_not]
  · rintro ⟨hok, -⟩
    obtain ⟨htag, hlt⟩ := hok rfl
    exact hbad ⟨htag, hlt, hnone⟩

theorem withOperands_oneLabel {o1 o2 : Slot} {s : State} {r : Word → Word → Out} (ho : OneLabel s.len o1 o2) :
    withOperands .label .none o1 o2 s r = r o1.val o2.val := by
  obtain ⟨htag, hlt, hnone⟩ := ho
  exact withOperands_label_ok htag hlt hnone

section
variable {o1 o2 : Slot} {s : State} (ho : OneLabel s.len o1 o2)
include ho

/-! ### JMP (R150) -/

theorem execJmp_jumps : execJmp o1 o2 s = .next (s.setIp o1.val.toNat) := withOperands_oneLabel ho

/-! ### JMPF (R151) -/

theorem execJmpf_empty (hempty : s.sp < Config.startSp + 1) :
    execJmpf o1 o2 s = .next (faultEntry .stackUnderflow s) := by
  rw [execJmpf, withOperands_oneLabel ho, checkPresent_neg hempty]

/-- With a value on the stack JMPF pops it, and the value decides on the jump alone. -/
theorem execJmpf_pops (hs : s.SpInRange) (hvalue : Config.startSp + 1 ≤ s.sp) : execJmpf o1 o2 s =
    .next (if s.cell s.sp = 0#64 then (s.setSp (s.sp - 1)).setIp o1.val.toNat else s.setSp (s.sp - 1)) := by
  rw [execJmpf, withOperands_oneLabel ho, checkPresent_pos hvalue, memRead_in (top_inArray hs hvalue)]

/-! ### CALL (R152) -/

theorem execCall_full (hfull : s.sp = Config.stackCap - 1) :
    execCall o1 o2 s = .next (faultEntry .stackOverflow s) := by
  rw [execCall, withOperands_oneLabel ho, checkRoom_neg (by rw [hfull]; decide)]

theorem execCall_pushes (hs : s.SpInRange) (hroom : s.sp < Config.stackCap - 1) :
    execCall o1 o2 s = .next ((pushed (indexWord s.ip) s).setIp o1.val.toNat) := by
  have hfree : s.sp + 1 ≤ 8191 := hroom
  rw [execCall, withOperands_oneLabel ho, checkRoom_pos hfree, push_room hs.1 hfree]

end

/-- Settles O42: after the operand check JMP is the write of `ip`. -/
theorem jmpSetsIp : Obligations.JmpSetsIp :=
  ⟨labelOperandFaults_of_sig (fun _ _ => rfl) (fun _ _ => rfl) fun _ _ => rfl, fun _ _ _ => ⟨rfl, execJmp_jumps⟩⟩

/-- Settles O43: the two outcomes of JMPF with a value on the stack are the branches of its test against 0. -/
theorem jmpfPopsAndBranchesOnZero : Obligations.JmpfPopsAndBranchesOnZero := by
  refine ⟨labelOperandFaults_of_sig (fun _ _ => rfl) (fun _ _ => rfl) fun _ _ => rfl, fun o1 o2 s hs ho =>
    ⟨rfl, execJmpf_empty ho, fun hvalue hzero => ?_, fun hvalue hne => ?_⟩⟩
  · exact (execJmpf_pops ho hs hvalue).trans (congrArg _ (if_pos hzero))
  · exact (execJmpf_pops ho hs hvalue).trans (congrArg _ (if_neg hne))

/-- Settles O44: below a full stack CALL is the push of the return index, followed by the write of `ip`, which no cell
sees. -/
theorem callPushesTheReturnIndex : Obligations.CallPushesTheReturnIndex := by
  refine ⟨labelOperandFaults_of_sig (fun _ _ => rfl) (fun _ _ => rfl) fun _ _ => rfl, fun o1 o2 s hs ho =>
    ⟨rfl, execCall_full ho, fun hroom => ⟨(pushed (indexWord s.ip) s).setIp o1.val.toNat, ?_⟩⟩⟩
  exact ⟨execCall_pushes ho hs hroom, pushed_sp (indexWord s.ip) s, pushed_cell_top (indexWord s.ip) s, setIp_ip _ _,
    pushed_sameCellsExcept (indexWord s.ip) hs, rfl⟩

/-! ### RETURN (R153) -/

section
variable {o1 o2 : Slot} {s : State}

theorem execRet_not_noOperands (h : ¬ NoOperands o1 o2) :
    execRet o1 o2 s = .next (faultEntry .operandTypeError s) := withOperands_not_noOperands h

variable (ho : NoOperands o1 o2)
include ho

theorem execRet_empty (hempty : s.sp < Config.startSp + 1) :
    execRet o1 o2 s = .next (faultEntry .stackUnderflow s) := by
  rw [execRet, withOperands_none ho.1 ho.2, checkPresent_neg hempty]

variable (hs : s.SpInRange) (hvalue : Config.startSp + 1 ≤ s.sp)
include hs hvalue

/-- With a value on the stack and no operand, RETURN reads it and then asks whether it may be an `ip`. -/
theorem execRet_reads : execRet o1 o2 s =
    check (0 ≤ (s.cell s.sp).toInt ∧ (s.cell s.sp).toInt ≤ s.len) .ipOutOfRange s
      (.next ((s.setSp (s.sp - 1)).setIp (s.cell s.sp).toInt.toNat)) := by
  rw [execRet, withOperands_none ho.1 ho.2, checkPresent_pos hvalue, memRead_in (top_inArray hs hvalue)]

theorem execRet_outOfRange (hout : (s.cell s.sp).toInt < 0 ∨ (s.len : Int) < (s.cell s.sp).toInt) :
    execRet o1 o2 s = .next (faultEntry .ipOutOfRange s) := by
  rw [execRet_reads ho hs hvalue, check_neg (by omega)]

theorem execRet_returns (hnonneg : 0 ≤ (s.cell s.sp).toInt) (hle : (s.cell s.sp).toInt ≤ s.len) :
    execRet o1 o2 s = .next ((s.setSp (s.sp - 1)).setIp (s.cell s.sp).toInt.toNat) := by
  rw [execRet_reads ho hs hvalue, check_pos ⟨hnonneg, hle⟩]

end

/-- Settles O45: RETURN looks for operands, for a value and for its range in this order, and then it writes `sp` and
`ip`. -/
theorem returnPopsIntoIp : Obligations.ReturnPopsIntoIp := fun _ _ _ hs =>
  ⟨rfl, execRet_not_noOperands, execRet_empty, fun ho => execRet_outOfRange ho hs, fun ho => execRet_returns ho hs⟩

/-! ### The round trip of CALL and RETURN (R155) -/

/-- Below `2^63` the word of an index reads as the index (log 1). -/
theorem indexWord_toInt {i : Nat} (h : i < 2 ^ 63) : (indexWord i).toInt = i := by
  rw [indexWord, BitVec.toInt_ofNat']
  exact Int.bmod_eq_of_le (by omega) (by omega)

/-- Settles O46: the top is the word of the return index, which lies in `[0, len]`, and RETURN pops what CALL
pushed. -/
theorem callReturnRoundTrip : Obligations.CallReturnRoundTrip := by
  intro o1 o2 p1 p2 s hs hip hlen ho hp hroom
  refine ⟨_, execCall_pushes ho hs hroom, fun u husp hutop hulen => ?_⟩
  obtain ⟨hlow, -⟩ := spInRange_iff.1 hs
  have hfree : s.sp + 1 ≤ 8191 := hroom
  replace husp : u.sp = s.sp + 1 := husp
  replace hulen : u.len = s.len := hulen
  have hindex : (u.cell u.sp).toInt = s.ip := by
    rw [hutop, setIp_cell, setIp_sp, pushed_sp, pushed_cell_top, indexWord_toInt (by omega)]
  have hus : u.SpInRange := spInRange_iff.2 (by omega)
  have hvalue : 0 ≤ u.sp := by omega
  refine ⟨_, execRet_returns hp hus hvalue (by omega) (by omega), ?_, ?_, fun _ _ => rfl⟩
  · rw [setIp_ip, hindex, Int.toNat_natCast]
  · rw [setIp_sp, setSp_sp, husp, add_sub_cancel_right]

end Sys2Proof.Machine

/-! PROOFS. The statements of spec/46_frame.md: ALLOC (R160) and DALLOC (R161), each with its faults in the order of
R201 and its frame, their round trip (R162), and when ALLOC copies a snapshot (R163). -/

namespace Sys2Proof.Machine

/-! ### What the two loops leave, for a count and an index in exact arithmetic -/

theorem allocDone_zero (m : Int) (s : State) : AllocDone m 0 s s :=
  ⟨rfl, by simp, id, fun _ _ _ => rfl, fun _ hk => absurd hk (Nat.not_lt_zero _)⟩

theorem dallocDone_zero (m : Int) (s : State) : DallocDone m 0 s s :=
  ⟨rfl, by simp, id, fun _ _ _ => rfl, fun _ hk => absurd hk (Nat.not_lt_zero _)⟩

section
variable {m k : Int} {n : Nat} {s t : State} (h0 : 0 ≤ k) (hk : k < n)
include h0 hk

theorem AllocDone.block_cell (d : AllocDone m n s t) : t.cell (s.sp + 1 + k) =
    if s.sp < m + k ∧ m + k < s.sp + 1 + k then t.cell (m + k) else s.cell (m + k) := by
  obtain ⟨j, rfl⟩ := Int.eq_ofNat_of_zero_le h0
  exact (d.block j (by omega)).trans (if_congr (by omega) rfl rfl)

theorem DallocDone.range_cell (d : DallocDone m n s t) : t.cell (m + k) =
    if m + k < s.sp - n + 1 + k ∧ s.sp - n + 1 + k ≤ m + n - 1 then t.cell (s.sp - n + 1 + k)
    else s.cell (s.sp - n + 1 + k) := by
  obtain ⟨j, rfl⟩ := Int.eq_ofNat_of_zero_le h0
  exact d.range j (by omega)

/-- Where the range lies above or below the old top, no cell of it is pushed over before it is read (R163). -/
theorem AllocDone.block_snapshot (d : AllocDone m n s t) (hm : s.sp < m ∨ m + n - 1 ≤ s.sp) :
    t.cell (s.sp + 1 + k) = s.cell (m + k) := by
  rw [d.block_cell h0 hk, if_neg (by omega)]

/-- Where the range lies above or below the new top, no value is stored over before it is popped (R162). -/
theorem DallocDone.range_snapshot (d : DallocDone m n s t) (hm : s.sp - n < m ∨ m + n - 1 ≤ s.sp - n) :
    t.cell (m + k) = s.cell (s.sp - n + 1 + k) := by
  rw [d.range_cell h0 hk, if_neg (by omega)]

end

/-- A range that begins at the old top is read one cell behind the pushes, so each push repeats the one before
(R163). -/
theorem AllocDone.block_repeats_top {n : Nat} {s t : State} (d : AllocDone s.sp n s t) (k : Nat) (hk : k < n) :
    t.cell (s.sp + 1 + k) = s.cell s.sp := by
  induction k with
  | zero => rw [d.block 0 hk, if_neg (by simp), Nat.cast_zero, add_zero]
  | succ k ih =>
    have hprevious : s.sp + ((k + 1 : Nat) : Int) = s.sp + 1 + k := by push_cast; ring
    rw [d.block (k + 1) hk, if_pos (by omega), hprevious, ih (by omega)]

/-! ### The instructions -/

/-- The operand fault of the instructions that take two integers. -/
theorem exec_not_twoInts (i : Instr) (s : State) (hsig : i.sig = (.int, .int)) (h : ¬ TwoInts i.slot1 i.slot2) :
    exec i s = .next (faultEntry .operandTypeError s) :=
  (operandCheckComesFirst i s (by simp [hsig])).1 (by simpa [hsig, SlotKindOk] using h)

section
variable {o1 o2 : Slot} {s : State} (ho : TwoInts o1 o2)
include ho

theorem execAlloc_badRange (hr : ¬ RangeAccepted o1.val.toInt o2.val.toInt) :
    execAlloc o1 o2 s = .next (faultEntry .addressOutOfRange s) := by
  rw [execAlloc, withOperands_ints ho.1 ho.2, checkRange_neg hr]

theorem execDalloc_badRange (hr : ¬ RangeAccepted o1.val.toInt o2.val.toInt) :
    execDalloc o1 o2 s = .next (faultEntry .addressOutOfRange s) := by
  rw [execDalloc, withOperands_ints ho.1 ho.2, checkRange_neg hr]

variable (hr : RangeAccepted o1.val.toInt o2.val.toInt)
include hr

theorem execAlloc_full (hfull : Config.stackCap - 1 < s.sp + o2.val.toInt) :
    execAlloc o1 o2 s = .next (faultEntry .stackOverflow s) := by
  rw [execAlloc, withOperands_ints ho.1 ho.2, checkRange_pos hr, checkRoom_neg hfull]

theorem execDalloc_short (hshort : s.sp - Config.startSp < o2.val.toInt) :
    execDalloc o1 o2 s = .next (faultEntry .stackUnderflow s) := by
  rw [Config.startSp] at hshort
  rw [execDalloc, withOperands_ints ho.1 ho.2, checkRange_pos hr, checkPresent_neg (by omega)]

variable (hs : s.SpInRange) {n : Nat} (hn : o2.val.toInt = n)
include hs hn

/-- Past its checks ALLOC is its loop, which stays inside the array; with no cell to push it moves nothing. -/
theorem execAlloc_runs (hroom : s.sp + o2.val.toInt ≤ Config.stackCap - 1) :
    ∃ t, execAlloc o1 o2 s = .next t ∧ AllocDone o1.val.toInt n s t := by
  have hfree : s.sp + o2.val.toInt ≤ 8191 := hroom
  rw [execAlloc, withOperands_ints ho.1 ho.2, checkRange_pos hr, checkRoom_pos hfree, hn, Int.toNat_natCast]
  obtain ⟨-, hnone | ⟨hlow, hhigh⟩⟩ := hr
  · obtain rfl : n = 0 := by omega
    exact ⟨s, rfl, allocDone_zero _ s⟩
  · rw [Config.stackCap] at hhigh
    exact allocLoop_done n _ s hs.1 (by omega) hlow (by omega)

/-- Past its checks DALLOC is its loop, which stays inside the array; with no cell to pop it moves nothing. -/
theorem execDalloc_runs (hpresent : o2.val.toInt ≤ s.sp - Config.startSp) :
    ∃ t, execDalloc o1 o2 s = .next t ∧ DallocDone o1.val.toInt n s t := by
  rw [Config.startSp] at hpresent
  rw [execDalloc, withOperands_ints ho.1 ho.2, checkRange_pos hr, checkPresent_pos (by omega), hn, Int.toNat_natCast]
  obtain ⟨-, hnone | ⟨hlow, hhigh⟩⟩ := hr
  · obtain rfl : n = 0 := by omega
    exact ⟨s, rfl, dallocDone_zero _ s⟩
  · rw [Config.stackCap] at hhigh
    exact dallocLoop_done n _ s (by omega) hs.2 hlow (by omega)

end

/-! ### The statements -/

/-- Settles O47: ALLOC looks for operands, for its range and for room in this order, and then it is its loop. -/
theorem allocPushesTheRange : Obligations.AllocPushesTheRange := by
  intro o1 o2 s hs
  refine ⟨rfl, exec_not_twoInts (.alloc o1 o2) s rfl, execAlloc_badRange, execAlloc_full, fun ho hr hroom => ?_⟩
  obtain ⟨n, hn⟩ := Int.eq_ofNat_of_zero_le hr.1
  obtain ⟨t, ht, d⟩ := execAlloc_runs ho hr hs hn hroom
  rw [hn]
  exact ⟨t, ht, d.sp, fun k h0 hk => d.block_cell h0 hk, d.outside, d.only⟩

/-- Settles O48: DALLOC looks for operands, for its range and for its values in this order, and then it is its
loop. -/
theorem dallocPopsIntoTheRange : Obligations.DallocPopsIntoTheRange := by
  intro o1 o2 s hs
  refine ⟨rfl, exec_not_twoInts (.dalloc o1 o2) s rfl, execDalloc_badRange, execDalloc_short,
    fun ho hr hpresent => ?_⟩
  obtain ⟨n, hn⟩ := Int.eq_ofNat_of_zero_le hr.1
  obtain ⟨t, ht, d⟩ := execDalloc_runs ho hr hs hn hpresent
  rw [hn]
  exact ⟨t, ht, d.sp, fun k h0 hk => d.range_cell h0 hk, d.outside, d.only⟩

/-- Settles O49: a range that does not straddle the old top is a snapshot on the way up, and on the way down as well,
because the pops bring `sp` back to the old top. -/
theorem allocDallocRoundTrip : Obligations.AllocDallocRoundTrip := by
  intro o1 o2 p1 p2 s j hs ho hp hp1 hp2 hr hroom
  obtain ⟨n, hn⟩ := Int.eq_ofNat_of_zero_le hr.1
  obtain ⟨t, ht, d⟩ := execAlloc_runs ho hr hs hn hroom
  obtain ⟨hlow, -⟩ := spInRange_iff.1 hs
  have hfree : s.sp + o2.val.toInt ≤ 8191 := hroom
  have htop : (t.setIp j).sp = s.sp + n := d.sp
  have hts : (t.setIp j).SpInRange := spInRange_iff.2 (by omega)
  rw [← hp1, ← hp2] at hr
  obtain ⟨u, hu, e⟩ := execDalloc_runs hp hr hts (hp2 ▸ hn) (by rw [Config.startSp, hp2]; omega)
  rw [hp1] at e
  refine ⟨t, u, ht, hu, by rw [e.sp, htop, add_sub_cancel_right], fun hm k h0 hk => ?_⟩
  rw [hn] at hm hk
  calc u.cell (o1.val.toInt + k)
      = t.cell (s.sp + 1 + k) := by
        rw [e.range_snapshot h0 hk (by omega), htop, add_sub_cancel_right, setIp_cell]
    _ = s.cell (o1.val.toInt + k) := d.block_snapshot h0 hk (by omega)

/-- Settles O50: both forms are read off the block that ALLOC leaves. -/
theorem allocCopiesASnapshotUnlessStraddling : Obligations.AllocCopiesASnapshotUnlessStraddling := by
  intro o1 o2 s hs ho hr hroom
  obtain ⟨n, hn⟩ := Int.eq_ofNat_of_zero_le hr.1
  obtain ⟨t, ht, d⟩ := execAlloc_runs ho hr hs hn hroom
  rw [hn]
  refine ⟨t, ht, fun hm k h0 hk => d.block_snapshot h0 hk hm, fun hm _ k h0 hk => ?_⟩
  rw [hm] at d
  obtain ⟨i, rfl⟩ := Int.eq_ofNat_of_zero_le h0
  exact d.block_repeats_top i (by omega)

end Sys2Proof.Machine

/-! PROOFS. The statements of spec/47_io.md: RD (R171) and PRN (R172) with their transactions (R170), the detached
channel (R173), who uses the channel (R174), and the host's responses (60_exceptions.md R220). -/

namespace Sys2Proof.Machine

/-! ### The end of a transaction (R170) -/

section
variable {s : State}

theorem resumeRead_answered {r : ReadAnswer} {rest : List ReadAnswer} (h : s.readAnswers = r :: rest) :
    resumeRead s = completeRead r { s with readAnswers := rest } := by
  rw [resumeRead, h]

theorem resumeWrite_answered {r : WriteAnswer} {rest : List WriteAnswer} (h : s.writeAnswers = r :: rest) :
    resumeWrite s = completeWrite r { s with writeAnswers := rest } := by
  rw [resumeWrite, h]

/-- An answer that comes to an empty list is taken out again, so RD completes as if it had never been listed. -/
theorem resumeRead_lateAnswer (h : s.readAnswers = []) (r : ReadAnswer) :
    resumeRead { s with readAnswers := [r] } = completeRead r s := by
  rw [resumeRead_answered rfl, ← h]

theorem resumeWrite_lateAnswer (h : s.writeAnswers = []) (r : WriteAnswer) :
    resumeWrite { s with writeAnswers := [r] } = completeWrite r s := by
  rw [resumeWrite_answered rfl, ← h]

theorem completeRead_error (s : State) :
    completeRead .error s = .next (faultEntry .ioChannelError (answered (.rdResp .error) s)) := rfl

theorem completeWrite_error (s : State) :
    completeWrite .error s = .next (faultEntry .ioChannelError (answered (.wrResp .error) s)) := rfl

theorem completeWrite_ok (s : State) :
    completeWrite .ok s = .next ((answered (.wrResp .ok) s).setSp (s.sp - 1)) := rfl

/-- A value completes RD with a push: what it leaves, and its frame. -/
theorem completeRead_pushes (v : Word) (hs : s.SpInRange) (hroom : s.sp + 1 ≤ 8191) :
    ∃ t, completeRead (.value v) s = .next t ∧ t.sp = s.sp + 1 ∧ t.cell (s.sp + 1) = v ∧
      SameCellsExcept (s.sp + 1) s t ∧
      t = { s with stack := t.stack, sp := t.sp, inFlight := none, ioTrace := s.ioTrace ++ [.rdResp (.value v)] } := by
  set u := answered (.rdResp (.value v)) s
  exact ⟨pushed v u, completeRead_value hs.1 hroom, pushed_sp v u, pushed_cell_top v u,
    pushed_sameCellsExcept v (s := u) hs, rfl⟩

/-! ### The checks before the request (R171 to R173) -/

variable {o1 o2 : Slot}

theorem execRd_not_noOperands (h : ¬ NoOperands o1 o2) :
    execRd o1 o2 s = .next (faultEntry .operandTypeError s) := withOperands_not_noOperands h

theorem execPrn_not_noOperands (h : ¬ NoOperands o1 o2) :
    execPrn o1 o2 s = .next (faultEntry .operandTypeError s) := withOperands_not_noOperands h

variable (ho : NoOperands o1 o2)
include ho

theorem execRd_full (hfull : s.sp = Config.stackCap - 1) :
    execRd o1 o2 s = .next (faultEntry .stackOverflow s) := by
  rw [execRd, withOperands_none ho.1 ho.2, checkRoom_neg (by rw [hfull]; decide)]

theorem execPrn_empty (hempty : s.sp < Config.startSp + 1) :
    execPrn o1 o2 s = .next (faultEntry .stackUnderflow s) := by
  rw [execPrn, withOperands_none ho.1 ho.2, checkPresent_neg hempty]

theorem execRd_detached (hroom : s.sp < Config.stackCap - 1) (hdetached : s.ioAttached = false) :
    execRd o1 o2 s = .next (faultEntry .ioChannelError s) := by
  rw [execRd, withOperands_none ho.1 ho.2, checkRoom_pos hroom, check_neg (by simp [hdetached])]

theorem execPrn_detached (hvalue : Config.startSp + 1 ≤ s.sp) (hdetached : s.ioAttached = false) :
    execPrn o1 o2 s = .next (faultEntry .ioChannelError s) := by
  rw [execPrn, withOperands_none ho.1 ho.2, checkPresent_pos hvalue, check_neg (by simp [hdetached])]

/-- With its checks passed RD sends its request, and the rest is the transaction. -/
theorem execRd_issues (hroom : s.sp < Config.stackCap - 1) (hattached : s.ioAttached = true) :
    execRd o1 o2 s = resumeRead (issue .rdReq .rdReq s) := by
  rw [execRd, withOperands_none ho.1 ho.2, checkRoom_pos hroom, check_pos hattached]

/-- With its checks passed PRN sends the top, and the rest is the transaction. -/
theorem execPrn_issues (hs : s.SpInRange) (hvalue : Config.startSp + 1 ≤ s.sp) (hattached : s.ioAttached = true) :
    execPrn o1 o2 s = resumeWrite (issue (.wrReq (s.cell s.sp)) (.wrReq (s.cell s.sp)) s) := by
  rw [execPrn, withOperands_none ho.1 ho.2, checkPresent_pos hvalue, check_pos hattached,
    memRead_in (top_inArray hs hvalue)]

end

/-- Settles O51: past its checks RD is its request, and then the oldest answer completes it or it waits. -/
theorem rdPushesTheHostsValue : Obligations.RdPushesTheHostsValue := by
  intro o1 o2 s hs
  refine ⟨rfl, execRd_not_noOperands, execRd_full, execRd_detached, fun ho hroom hattached => ?_⟩
  set t := issue .rdReq .rdReq s
  have hissued : exec (.rd o1 o2) s = resumeRead t := execRd_issues ho hroom hattached
  rw [hissued]
  refine ⟨fun v rest h => ?_, fun rest h => ?_, fun h => resumeRead_waiting (s := t) h⟩
  · rw [resumeRead_answered (s := t) h, List.append_cons]
    exact completeRead_pushes v hs hroom
  · rw [resumeRead_answered (s := t) h, completeRead_error, List.append_cons]
    rfl

/-- Settles O52: past its checks PRN is its request, and then the oldest answer completes it or it waits. -/
theorem prnSendsTheTop : Obligations.PrnSendsTheTop := by
  intro o1 o2 s hs
  refine ⟨rfl, execPrn_not_noOperands, execPrn_empty, execPrn_detached, fun ho hvalue hattached => ?_⟩
  set t := issue (.wrReq (s.cell s.sp)) (.wrReq (s.cell s.sp)) s
  have hissued : exec (.prn o1 o2) s = resumeWrite t := execPrn_issues ho hs hvalue hattached
  rw [hissued]
  refine ⟨fun rest h => ?_, fun rest h => ?_, fun h => resumeWrite_waiting (s := t) h⟩
  · rw [resumeWrite_answered (s := t) h, completeWrite_ok, List.append_cons]
    rfl
  · rw [resumeWrite_answered (s := t) h, completeWrite_error, List.append_cons]
    rfl

/-! ### Who uses the channel (R170, R173, R174) -/

/-- The transaction in flight and the record of the channel are in `t` as in `s`. -/
def KeepsChannel (s t : State) : Prop := t.inFlight = s.inFlight ∧ t.ioTrace = s.ioTrace

section
variable {s t : State}

theorem resumeRead_ioTrace_grows (h : resumeRead s = .next t) : s.ioTrace <+: t.ioTrace := by
  rcases resumeRead_next h with ⟨-, rfl⟩ | ⟨r, rest, -, h⟩
  · exact ⟨[], List.append_nil _⟩
  · rcases completeRead_next h with ⟨-, rfl⟩ | ⟨v, -, -, -, rfl⟩ <;> exact ⟨_, rfl⟩

theorem resumeWrite_ioTrace_grows (h : resumeWrite s = .next t) : s.ioTrace <+: t.ioTrace := by
  rcases resumeWrite_next h with ⟨-, rfl⟩ | ⟨r, rest, -, h⟩
  · exact ⟨[], List.append_nil _⟩
  · rcases completeWrite_next h with ⟨-, rfl⟩ | ⟨-, rfl⟩ <;> exact ⟨_, rfl⟩

theorem resumeIo_ioTrace_grows {q : IoRequest} (h : resumeIo q s = .next t) : s.ioTrace <+: t.ioTrace := by
  cases q with
  | rdReq => exact resumeRead_ioTrace_grows h
  | wrReq v => exact resumeWrite_ioTrace_grows h

theorem issue_ioTrace_grows (q : IoRequest) (e : IoEvent) (s : State) : s.ioTrace <+: (issue q e s).ioTrace :=
  ⟨_, rfl⟩

/-- An instruction leaves the channel alone, or it is RD or PRN on an attached one and adds to the record. -/
theorem Effect.keepsChannel_or_uses {i : Instr} (h : Effect i s t) :
    KeepsChannel s t ∨
    (s.ioAttached = true ∧ (∃ o1 o2, i = .rd o1 o2 ∨ i = .prn o1 o2) ∧ s.ioTrace <+: t.ioTrace) := by
  cases h with
  | fault f code eq => exact .inl (eq ▸ ⟨rfl, rfl⟩)
  | plain only sp wf ip => exact .inl (only ▸ ⟨rfl, rfl⟩)
  | halt o1 o2 instr eq => exact .inl (eq ▸ ⟨rfl, rfl⟩)
  | read o1 o2 instr room attached eq =>
    exact .inr ⟨attached, ⟨o1, o2, .inl instr⟩, (issue_ioTrace_grows _ _ s).trans (resumeRead_ioTrace_grows eq)⟩
  | write o1 o2 instr present attached eq =>
    exact .inr ⟨attached, ⟨o1, o2, .inr instr⟩, (issue_ioTrace_grows _ _ s).trans (resumeWrite_ioTrace_grows eq)⟩

/-- A step leaves the channel alone, or it adds to the record: for the transaction in flight, or for the RD or PRN it
has fetched on an attached channel. -/
theorem step_keepsChannel_or_uses (h : step s = .next t) :
    KeepsChannel s t ∨
    (s.ioTrace <+: t.ioTrace ∧ (s.inFlight ≠ none ∨ s.ioAttached = true ∧
      ∃ w o1 o2, s.prog[s.ip]? = some w ∧ (decode w = some (.rd o1 o2) ∨ decode w = some (.prn o1 o2)))) := by
  rcases step_cases h with ⟨-, rfl⟩ | ⟨q, -, hq, h⟩ | ⟨-, -, -, rfl⟩ | ⟨w, -, -, -, -, rfl⟩ | ⟨w, i, -, -, hw, hd, h⟩
  · exact .inl ⟨rfl, rfl⟩
  · exact .inr ⟨resumeIo_ioTrace_grows h, .inl (by simp [hq])⟩
  · exact .inl ⟨rfl, rfl⟩
  · exact .inl ⟨rfl, rfl⟩
  · rcases (exec_effect h).keepsChannel_or_uses with hkeeps | ⟨hattached, ⟨o1, o2, hi⟩, hgrows⟩
    · exact .inl hkeeps
    · exact .inr ⟨hgrows, .inr ⟨hattached, w, o1, o2, hw, by simpa [hd] using hi⟩⟩

end

/-- Settles O53: a step that uses the channel has a transaction in flight or an attached channel. -/
theorem detachedChannelIssuesNothing : Obligations.DetachedChannelIssuesNothing := by
  refine ⟨fun s t hdetached hq h => ?_, fun o1 o2 s hdetached ho _ =>
    ⟨fun hroom => execRd_detached ho hroom hdetached, fun hvalue => execPrn_detached ho hvalue hdetached⟩⟩
  rcases step_keepsChannel_or_uses h with ⟨hflight, htrace⟩ | ⟨-, hne | ⟨hattached, -⟩⟩
  · exact ⟨hflight.trans hq, htrace⟩
  · exact absurd hq hne
  · exact absurd hattached (by simp [hdetached])

/-- Settles O54: a step that leaves the channel alone adds no event, and any other has its reason. -/
theorem onlyRdAndPrnUseTheChannel : Obligations.OnlyRdAndPrnUseTheChannel := by
  intro s t h
  rcases step_keepsChannel_or_uses h with ⟨-, htrace⟩ | ⟨⟨es, hes⟩, hreason⟩
  · exact ⟨[], by simp [htrace], fun hne => absurd rfl hne⟩
  · exact ⟨es, hes.symm, fun _ => hreason.imp_right And.right⟩

/-! ### The host's responses (60_exceptions.md R220) -/

/-- Settles O56: every way to deliver the answer is the completion of the same waiting state. -/
theorem lateAnswerActsAsReadyAnswer : Obligations.LateAnswerActsAsReadyAnswer := by
  intro o1 o2 s hs hr hattached ho
  refine ⟨fun r hnone hroom => ?_, fun r hnone hvalue => ?_⟩
  · set t := issue .rdReq .rdReq s
    obtain ⟨u, hu⟩ := completeRead_answers r (s := t) hs hroom
    have hlate : resumeRead { t with readAnswers := [r] } = .next u :=
      (resumeRead_lateAnswer (s := t) hnone r).trans hu
    refine ⟨t, u, ?_, ?_, ?_, ?_⟩
    · exact (execRd_issues ho hroom hattached).trans (resumeRead_waiting hnone)
    · exact (execRd_issues (s := { s with readAnswers := [r] }) ho hroom hattached).trans hlate
    · exact (hostReadResponse_waiting (s := t) rfl).trans hu
    · exact (step_inFlight (s := { t with readAnswers := [r] }) hr rfl).trans hlate
  · set t := issue (.wrReq (s.cell s.sp)) (.wrReq (s.cell s.sp)) s
    obtain ⟨u, hu⟩ := completeWrite_answers r t
    have hlate : resumeWrite { t with writeAnswers := [r] } = .next u :=
      (resumeWrite_lateAnswer (s := t) hnone r).trans hu
    refine ⟨t, u, ?_, ?_, ?_, ?_⟩
    · exact (execPrn_issues ho hs hvalue hattached).trans (resumeWrite_waiting hnone)
    · exact (execPrn_issues (s := { s with writeAnswers := [r] }) ho hs hvalue hattached).trans hlate
    · exact (hostWriteResponse_waiting (s := t) rfl).trans hu
    · exact (step_inFlight (s := { t with writeAnswers := [r] }) hr rfl).trans hlate

/-- Settles O57: a response to the request in flight is its completion, and any other leaves the state. -/
theorem responsesCompleteTheRequestInFlight : Obligations.ResponsesCompleteTheRequestInFlight := by
  intro s hinv
  refine ⟨fun v hq => ?_, fun hq => ?_, fun v hq => ⟨?_, ?_⟩, fun hq _ _ => ?_, fun hq _ _ => ?_⟩
  · have hvalue : hostAct (.readResponse s.resetCount (.value v)) s = completeRead (.value v) s :=
      hostReadResponse_waiting hq
    rw [hvalue]
    exact completeRead_pushes v hinv.sp_range (hinv.read_has_room hq)
  · exact (hostReadResponse_waiting hq).trans (completeRead_error s)
  · exact (hostWriteResponse_waiting hq).trans (completeWrite_ok s)
  · exact (hostWriteResponse_waiting hq).trans (completeWrite_error s)
  · exact hostReadResponse_not_waiting hq
  · exact hostWriteResponse_not_waiting hq

end Sys2Proof.Machine

/-! PROOFS. The statements of spec/60_exceptions.md and spec/70_reset_and_hazards.md: precise faults (R202), what the
host can do (R220), reset (R230), and how an ended run is left (R231). -/

namespace Sys2Proof.Machine

/-! ### What keeps the invariant: the launch and reset (R220, R230) -/

/-- Reset counts itself, and the invariant does not speak of the count while nothing is in flight. -/
theorem hostReset_inv (s : State) : (hostReset s).Inv :=
  { resetStateSatisfiesInvariant with write_has_value := fun _ h => nomatch h }

/-- The labels of a started run lie in its image (10_state.md R37). -/
theorem startRun_labels_in_image (recs : List Record) (attached : Bool) (s : State) :
    ∀ e ∈ (startRun recs attached s).labels, e.2 < (startRun recs attached s).len := by
  have hlt : ∀ e ∈ scanLabels 0 recs [], e.2 < 0 + recs.length := scanLabels_lt recs 0 [] (fun _ h => nomatch h)
  simpa [startRun, len_def] using hlt

section
variable {s : State} (hinv : s.Inv)
include hinv

theorem State.Inv.not_inFlight (hr : s.run ≠ .running) : s.inFlight = none :=
  Option.eq_none_iff_forall_ne_some.2 fun _ hq => hr (hinv.running_of_inFlight hq)

theorem State.Inv.haltCause_idle (hidle : s.run = .idle) : s.haltCause = false :=
  Bool.eq_false_iff.2 fun hc => nomatch (hinv.haltCause_halted hc).symm.trans hidle

/-- A load fault in IDLE, where the registers, the image and the label map are those of reset. -/
theorem State.Inv.loadFault (hidle : s.run = .idle) : (loadFault s).Inv := by
  obtain ⟨hip, -, -, hlabels⟩ := hinv.idle_empty hidle
  have hq : s.inFlight = none := hinv.not_inFlight (by simp [hidle])
  exact { hinv with
    ip_le_len := hip.le
    haltCause_halted := fun hc => nomatch (hinv.haltCause_idle hidle).symm.trans hc
    faultCode_faulted := iff_of_true nofun rfl
    faultIp_faulted := fun _ => rfl
    idle_empty := fun h => nomatch h
    image_nonempty := fun h => nomatch h
    labels_in_image := fun e he => absurd (hlabels ▸ he : e ∈ []) List.not_mem_nil
    inFlight_running := fun h => absurd hq h }

/-- A started run in IDLE, of at least one record. -/
theorem State.Inv.startRun {recs : List Record} (attached : Bool) (hidle : s.run = .idle) (hne : 1 ≤ recs.length) :
    (startRun recs attached s).Inv := by
  have hq : s.inFlight = none := hinv.not_inFlight (by simp [hidle])
  have hcode : s.faultCode = .noFault := by simpa [hidle] using hinv.faultCode_faulted
  have hsp : Config.startSp ≤ Config.startSp ∧ Config.startSp ≤ Config.stackCap - 1 := by decide
  have hlen : 1 ≤ (Machine.startRun recs attached s).len := hne.trans_eq (List.length_map _).symm
  exact { hinv with
    sp_range := hsp
    ip_le_len := hlen
    haltCause_halted := fun hc => nomatch (hinv.haltCause_idle hidle).symm.trans hc
    faultCode_faulted := iff_of_false (fun h => h hcode) (fun h => nomatch h)
    faultIp_faulted := fun _ => hinv.faultIp_faulted (by simp [hidle])
    idle_empty := fun h => nomatch h
    image_nonempty := fun _ => hlen
    labels_in_image := startRun_labels_in_image recs attached s
    inFlight_running := fun h => absurd hq h
    read_has_room := fun h => nomatch hq.symm.trans h
    write_has_value := fun _ h => nomatch hq.symm.trans h }

/-- Both ends of a load in IDLE. -/
theorem State.Inv.load (progMax : Nat) (recs : Option (List Record)) (attached : Bool) (hidle : s.run = .idle) :
    (load progMax recs attached s).Inv := by
  rcases load_cases progMax recs attached s with heq | ⟨rs, -, hloadable, heq⟩ <;> rw [heq]
  · exact hinv.loadFault hidle
  · obtain ⟨r, rest, rfl, -, -⟩ := loadable_iff.1 hloadable
    exact hinv.startRun attached hidle (Nat.le_add_left 1 rest.length)

theorem State.Inv.hostAct {act : HostAction} {t : State} (h : hostAct act s = .next t) : t.Inv := by
  rcases hostAct_cases h with rfl | ⟨-, rfl⟩ | ⟨recs, attached, -, hidle, rfl⟩ | ⟨r, -, hq, h⟩ | ⟨r, v, -, hq, h⟩
  · exact hinv
  · exact hostReset_inv s
  · exact hinv.load _ recs attached hidle
  · exact hinv.completeRead hq h
  · exact hinv.completeWrite hq h

end

/-- Settles O14, by what a host action can do: reset, load in IDLE, or complete the transaction in flight. -/
theorem hostActionsKeepInvariant : Obligations.HostActionsKeepInvariant := fun _ _ _ hinv h => hinv.hostAct h

/-! ### The number of a run only grows (R230, log 25) -/

section
variable {s t : State}

theorem step_resetCount (h : step s = .next t) : t.resetCount = s.resetCount := by
  obtain ⟨-, -, -, -, hcount⟩ := stepKeepsImageAndLabels s t h
  exact hcount

theorem completeRead_resetCount {r : ReadAnswer} (h : completeRead r s = .next t) : t.resetCount = s.resetCount := by
  rcases completeRead_next h with ⟨-, rfl⟩ | ⟨v, -, -, -, rfl⟩ <;> rfl

theorem completeWrite_resetCount {r : WriteAnswer} (h : completeWrite r s = .next t) :
    t.resetCount = s.resetCount := by
  rcases completeWrite_next h with ⟨-, rfl⟩ | ⟨-, rfl⟩ <;> rfl

/-- Reset begins a run of a higher number; every other host action stays in its run. -/
theorem hostAct_resetCount_le {act : HostAction} (h : hostAct act s = .next t) : s.resetCount ≤ t.resetCount := by
  rcases hostAct_cases h with rfl | ⟨-, rfl⟩ | ⟨recs, attached, -, -, rfl⟩ | ⟨r, -, -, h⟩ | ⟨r, v, -, -, h⟩
  · exact le_rfl
  · exact Nat.le_succ s.resetCount
  · exact (load_resetCount _ recs attached s).ge
  · exact (completeRead_resetCount h).ge
  · exact (completeWrite_resetCount h).ge

theorem Reaches.resetCount_le (h : Reaches s t) : s.resetCount ≤ t.resetCount := by
  induction h with
  | here => exact le_rfl
  | step before eq ih => exact ih.trans (step_resetCount eq).ge
  | act action before eq ih => exact ih.trans (hostAct_resetCount_le eq)

end

/-- Settles O11: the fields are those of `State.reset`, and every later state is in a run of a higher number than the
abandoned one, so that a response to that is one to another run. -/
theorem resetRestoresEveryField : Obligations.ResetRestoresEveryField := by
  intro s
  refine ⟨hostReset s, rfl, rfl, rfl, rfl, rfl, rfl, rfl, rfl, rfl, rfl, rfl, rfl, fun a _ => cell_unwritten rfl,
    fun u run hreach hrun => ?_⟩
  have hlater : s.resetCount + 1 ≤ u.resetCount := hreach.resetCount_le
  have hother : run ≠ u.resetCount := by omega
  exact ⟨fun r => hostReadResponse_other_run hother, fun r => hostWriteResponse_other_run hother⟩

/-! ### How an ended run is left (R231) -/

/-- Outside IDLE a launch is ignored, and with nothing in flight so is a response: reset alone acts. -/
theorem hostAct_not_idle_not_inFlight {act : HostAction} {s : State} (hidle : s.run ≠ .idle) (hq : s.inFlight = none)
    (hact : act ≠ .reset) : hostAct act s = .next s := by
  cases act with
  | reset => exact absurd rfl hact
  | launch recs attached => exact hostAct_launch_not_idle hidle
  | readResponse run r => exact hostReadResponse_not_waiting (by simp [hq])
  | writeResponse run r => exact hostWriteResponse_not_waiting (by simp [hq])

/-- Settles O17: an ended run is neither RUNNING, so it has no cycle and nothing in flight, nor IDLE, so it takes no
launch. -/
theorem endedRunsAreLeftOnlyByReset : Obligations.EndedRunsAreLeftOnlyByReset := by
  refine ⟨fun s hended => ?_, fun s recs attached => hostAct_launch_not_idle⟩
  have hrunning : s.run ≠ .running := by rcases hended with h | h <;> simp [h]
  have hidle : s.run ≠ .idle := by rcases hended with h | h <;> simp [h]
  exact ⟨step_not_running hrunning, fun hinv act => hostAct_not_idle_not_inFlight hidle (hinv.not_inFlight hrunning)⟩

/-! ### Precise faults (R202) -/

/-- `t` is `s` after a fault that came before any effect: nothing but the fault entry. -/
def CheckFault (s t : State) : Prop := ∃ f, f ≠ .noFault ∧ t = faultEntry f s

/-- `t` is `s` after the host has answered a transaction with an error: the fault entry, and before it the channel. -/
def ChannelFault (s t : State) : Prop := ∃ rs ws events, t =
  faultEntry .ioChannelError { s with inFlight := none, readAnswers := rs, writeAnswers := ws, ioTrace := events }

section
variable {s t : State}

/-- A request sent before the fault is one more event on the channel. -/
theorem ChannelFault.of_issue {q : IoRequest} {e : IoEvent} (h : ChannelFault (issue q e s) t) : ChannelFault s t := h

theorem resumeRead_faulted (hr : s.run = .running) (h : resumeRead s = .next t) (hf : t.run = .faulted) :
    ChannelFault s t := by
  rcases resumeRead_next h with ⟨-, rfl⟩ | ⟨r, rest, -, h⟩
  · exact nomatch hr.symm.trans hf
  · rcases completeRead_next h with ⟨-, rfl⟩ | ⟨v, -, -, -, rfl⟩
    · exact ⟨rest, s.writeAnswers, _, rfl⟩
    · exact nomatch hr.symm.trans hf

theorem resumeWrite_faulted (hr : s.run = .running) (h : resumeWrite s = .next t) (hf : t.run = .faulted) :
    ChannelFault s t := by
  rcases resumeWrite_next h with ⟨-, rfl⟩ | ⟨r, rest, -, h⟩
  · exact nomatch hr.symm.trans hf
  · rcases completeWrite_next h with ⟨-, rfl⟩ | ⟨-, rfl⟩
    · exact ⟨s.readAnswers, rest, _, rfl⟩
    · exact nomatch hr.symm.trans hf

theorem resumeIo_faulted {q : IoRequest} (hr : s.run = .running) (h : resumeIo q s = .next t) (hf : t.run = .faulted) :
    ChannelFault s t := by
  cases q with
  | rdReq => exact resumeRead_faulted hr h hf
  | wrReq v => exact resumeWrite_faulted hr h hf

theorem Effect.faulted {i : Instr} (hr : s.run = .running) (h : Effect i s t) (hf : t.run = .faulted) :
    CheckFault s t ∨ ChannelFault s t := by
  cases h with
  | fault f code eq => exact .inl ⟨f, code, eq⟩
  | plain only sp wf ip =>
    have hsame : t.run = s.run := by rw [only]
    exact nomatch hr.symm.trans (hsame.symm.trans hf)
  | halt o1 o2 instr eq => exact nomatch (congrArg State.run eq).symm.trans hf
  | read o1 o2 instr room attached eq =>
    have hissued : ChannelFault (issue _ _ s) t := resumeRead_faulted hr eq hf
    exact .inr hissued.of_issue
  | write o1 o2 instr present attached eq =>
    have hissued : ChannelFault (issue _ _ s) t := resumeWrite_faulted hr eq hf
    exact .inr hissued.of_issue

/-- The ways a step can fault: on the fetched state, or in the transaction in flight. -/
theorem step_faulted (hr : s.run = .running) (h : step s = .next t) (hf : t.run = .faulted) :
    (s.inFlight = none ∧ (CheckFault s.advance t ∨ ChannelFault s.advance t)) ∨
    (s.inFlight ≠ none ∧ ChannelFault s t) := by
  rcases step_cases h with ⟨hn, -⟩ | ⟨q, -, hq, h⟩ | ⟨-, -, -, rfl⟩ | ⟨w, -, hq, -, -, heq⟩ | ⟨w, i, -, hq, -, -, h⟩
  · exact absurd hr hn
  · exact .inr ⟨by simp [hq], resumeIo_faulted hr h hf⟩
  · exact nomatch hf
  · exact .inl ⟨hq, .inl ⟨.unknownOperation, nofun, heq⟩⟩
  · exact .inl ⟨hq, (exec_effect h).faulted hr hf⟩

/-- A launch that faults is the load fault, which leaves the registers and the array. -/
theorem load_faulted {progMax : Nat} {recs : Option (List Record)} {attached : Bool}
    (hf : (load progMax recs attached s).run = .faulted) : load progMax recs attached s = loadFault s := by
  rcases load_cases progMax recs attached s with heq | ⟨rs, -, -, heq⟩
  · exact heq
  · rw [heq] at hf
    exact nomatch hf

end

/-- Settles O25: a faulting step is one fault entry, after the fetch increment or in the transaction in flight, whose
instruction has been fetched before. -/
theorem faultsArePreciseAndRecordTheirIndex : Obligations.FaultsArePreciseAndRecordTheirIndex := by
  refine ⟨fun s t hinv hr h hf => ?_, fun s t recs attached hinv hidle h hf => ?_⟩
  · rcases step_faulted hr h hf with ⟨hq, ⟨f, hcode, rfl⟩ | ⟨rs, ws, events, rfl⟩⟩ | ⟨hq, rs, ws, events, rfl⟩
    · exact ⟨by rw [← hq]; rfl, hcode, rfl, fun _ => rfl, fun hne => absurd hq hne, fun _ => ⟨rfl, rfl, rfl⟩⟩
    · exact ⟨rfl, nofun, rfl, fun _ => rfl, fun hne => absurd hq hne, fun hne => absurd rfl hne⟩
    · obtain ⟨-, -, hfetched⟩ := hinv.inFlight_running hq
      exact ⟨rfl, nofun, (Nat.sub_add_cancel hfetched).symm, fun hnone => absurd hnone hq, fun _ => rfl,
        fun hne => absurd rfl hne⟩
  · obtain ⟨hip, hsp, -, -⟩ := hinv.idle_empty hidle
    rw [hostAct_launch_idle hidle] at h
    cases h
    rw [load_faulted hf]
    exact ⟨rfl, rfl, rfl, hip, hsp, fun _ _ => rfl⟩

/-! ### The readout port (R220) -/

/-- `sp` in its range is the value of its sign-extended word (10_state.md R23). -/
theorem wrap64_sp_toInt {s : State} (hs : s.SpInRange) : (wrap64 s.sp).toInt = s.sp := by
  obtain ⟨hlow, hhigh⟩ := spInRange_iff.1 hs
  rw [wrap64_toInt]
  exact Int.bmod_eq_of_le (by omega) (by omega)

theorem readout_running {s : State} (h : s.run = .running) (target : ReadoutTarget) : readout target s = none := if_pos h

section
variable {s : State} (h : s.run ≠ .running)
include h

theorem readout_ip : readout .ip s = some (indexWord s.ip) := if_neg h

theorem readout_sp : readout .sp s = some (wrap64 s.sp) := if_neg h

theorem readout_cell {a : Int} (ha : Config.inArray a) : readout (.cell a) s = some (s.cell a) :=
  (if_neg h).trans (if_pos ha)

theorem readout_noCell {a : Int} (ha : ¬ Config.inArray a) : readout (.cell a) s = none := (if_neg h).trans (if_neg ha)

end

/-- Settles O21: what the port answers for each target, outside RUNNING. -/
theorem readoutAnswersOnlyWhenNotRunning : Obligations.ReadoutAnswersOnlyWhenNotRunning := by
  refine fun s => ⟨readout_running, fun h => ⟨readout_ip h, fun hs => ⟨_, readout_sp h, wrap64_sp_toInt hs⟩,
    fun a hlow hhigh => readout_cell h ⟨hlow, hhigh⟩, fun a hout => readout_noCell h ?_⟩⟩
  rintro ⟨hlow, hhigh⟩
  omega

end Sys2Proof.Machine
